-- ==== Sys2Proof/Word.lean ====
section
/-! DEFINITION. The word type and the register index of SimpleCPU: 16 bits, the width of a memory word, of `pc`, `ir`, `acc` and of a
register (00_scope.md R7). Bit 0 is the least significant bit (R13), as in Lean's `BitVec`. -/

namespace Sys2Proof

/-- A 16-bit word (R7, R13). -/
abbrev Word := BitVec 16

/-- An index of the register file `x[0..7]` (R27). -/
abbrev RegIdx := Fin 8

end Sys2Proof
end

