-- ==== Sys2Proof/Config.lean ====
section
/-! DEFINITION. The construction-time parameters of 00_scope.md R2 and R8 as plain data, the default opcode maps of
30_encoding.md R90 to R92, and the one free value of the hardware: the word a device read returns (20_memory.md R60). -/

namespace Sys2Proof

/-- The variant, chosen once at construction (R2). -/
inductive Arch where
  | acc
  | reg
deriving DecidableEq, Repr

/-- How an 8-bit ALU result enters the 16-bit accumulator: the parameter `ACC_WRITEBACK` (R8, D5). -/
inductive Writeback where
  | zext
  | sext
deriving DecidableEq, Repr

/-- The instruction names of the accumulator variant (R90). -/
inductive AccOp where
  | move | add | sub | and | load | store | addm | subm | jumpu | jumpz | jumpnz | jumpc
deriving DecidableEq, Repr

/-- The instruction names of the register variant: the immediate and absolute forms of R91 (names ending in `I` are
the immediate forms that share a mnemonic with a register form), then the forms of R92 (`loadInd`, `storeInd` are the
register-indirect ones). -/
inductive RegOp where
  | moveI | addI | subI | andI | load | store | addm | subm | jumpu | jumpz | jumpnz | jumpc | call | orI | xop1
  | move | loadInd | storeInd | rol | ror | add | sub | and | or | xor | asl | xop2 | xop3 | xop4 | xop5 | ret
deriving DecidableEq, Repr

/-- The parameter `OPMAP` (R8): for each opcode the instruction it selects, or none. `primary` is read for primary
opcodes 0x0 to 0xE only, since 0xF is the extension value (R84). -/
structure OpMap where
  acc       : Vector (Option AccOp) 16
  primary   : Vector (Option RegOp) 16
  secondary : Vector (Option RegOp) 16
deriving DecidableEq, Repr

/-- The default map of the accumulator variant (R90). Opcode 0xB has its row here and is taken away again while
`accHasJumpc` is false (R172). -/
def OpMap.accStandard : Vector (Option AccOp) 16 :=
  #v[some .move, some .add, some .sub, some .and, some .load, some .store, some .addm, some .subm,
     some .jumpu, some .jumpz, some .jumpnz, some .jumpc, none, none, none, none]

/-- The default primary map of the register variant (R91). -/
def OpMap.primaryStandard : Vector (Option RegOp) 16 :=
  #v[some .moveI, some .addI, some .subI, some .andI, some .load, some .store, some .addm, some .subm,
     some .jumpu, some .jumpz, some .jumpnz, some .jumpc, some .call, some .orI, some .xop1, none]

/-- The default secondary map of the register variant (R92). -/
def OpMap.secondaryStandard : Vector (Option RegOp) 16 :=
  #v[some .move, some .loadInd, some .storeInd, some .rol, some .ror, some .add, some .sub, some .and,
     some .or, some .xor, some .asl, some .xop2, some .xop3, some .xop4, some .xop5, some .ret]

/-- The default `OPMAP` (R90, R91, R92; PRESUMED by the spec, D1, log 3). -/
def OpMap.standard : OpMap :=
  { acc := OpMap.accStandard, primary := OpMap.primaryStandard, secondary := OpMap.secondaryStandard }

/-- The parameters of R2 and R8 (but for `IMAGE` and `MAP`, which the host supplies, and `detect_halt`, an input of
each step). -/
structure Config where
  arch           : Arch
  opmap          : OpMap
  accHasJumpc    : Bool
  resetPc        : Word
  positiveOnZero : Bool
  accWriteback   : Writeback
  accLoadFull    : Bool
deriving DecidableEq, Repr

/-- The spec's defaults (R8), for either variant. -/
def Config.default (arch : Arch) : Config :=
  { arch := arch, opmap := OpMap.standard, accHasJumpc := false, resetPc := 0, positiveOnZero := false,
    accWriteback := .zext, accLoadFull := true }

/-- The word returned by the `n`-th device read: "a free 16-bit draw at every call" (R60, D16). A FREE VALUE: it has
no body, so nothing can be proved of its value (log 19). -/
opaque Config.deviceWord : Nat → Word

end Sys2Proof
end

