-- ==== Sys2Proof/Syntax.lean ====
section
/-! DEFINITION. The instructions: one constructor per row of opcode_table.json (43 rows), with the operands that the
row's mode cuts from the word (30_encoding.md R82 to R87). A register operand is an index of the 8-entry register file
(10_state.md R27); that an instruction can name only 0 to 3 (R28) is the check of WellFormed.lean. Operands that a row
ignores are no arguments: the `0` of an ACC immediate tuple (R82), `rs` of the unary instructions, every field of XOP1
to XOP5 and RET (R95, log 10). -/

namespace Sys2Proof

/-- The instructions of both variants, in the table's order. -/
inductive Instr where
  -- ACC (R161 to R172): `k` is the 8-bit operand, `a` the 8-bit address or target
  | accMove (k : BitVec 8)
  | accAdd (k : BitVec 8)
  | accSub (k : BitVec 8)
  | accAnd (k : BitVec 8)
  | accLoad (a : BitVec 8)
  | accStore (a : BitVec 8)
  | accAddm (a : BitVec 8)
  | accSubm (a : BitVec 8)
  | accJumpu (a : BitVec 8)
  | accJumpz (a : BitVec 8)
  | accJumpnz (a : BitVec 8)
  | accJumpc (a : BitVec 8)
  -- REG, primary space (R181 to R195)
  | regMoveI (rd : RegIdx) (k : BitVec 8)
  | regAddI (rd : RegIdx) (k : BitVec 8)
  | regSubI (rd : RegIdx) (k : BitVec 8)
  | regAndI (rd : RegIdx) (k : BitVec 8)
  | regLoad (a : BitVec 12)
  | regStore (a : BitVec 12)
  | regAddm (a : BitVec 12)
  | regSubm (a : BitVec 12)
  | regJumpu (a : BitVec 12)
  | regJumpz (a : BitVec 12)
  | regJumpnz (a : BitVec 12)
  | regJumpc (a : BitVec 12)
  | regCall (a : BitVec 12)
  | regOrI (rd : RegIdx) (k : BitVec 8)
  | regXop1
  -- REG, secondary space (R211 to R226)
  | regMove (rd rs : RegIdx)
  | regLoadInd (rd rs : RegIdx)
  | regStoreInd (rd rs : RegIdx)
  | regRol (rd : RegIdx)
  | regRor (rd : RegIdx)
  | regAdd (rd rs : RegIdx)
  | regSub (rd rs : RegIdx)
  | regAnd (rd rs : RegIdx)
  | regOr (rd rs : RegIdx)
  | regXor (rd rs : RegIdx)
  | regAsl (rd : RegIdx)
  | regXop2
  | regXop3
  | regXop4
  | regXop5
  | regRet
deriving DecidableEq, Repr

end Sys2Proof
end

