-- ==== Sys2Proof/WellFormed.lean ====
section
/-! DEFINITION. Which instruction terms a word can encode: register fields are 2 bits wide, so a register operand is
0 to 3 (10_state.md R28, 30_encoding.md R85, R87); and which variant an instruction belongs to. -/

namespace Sys2Proof

/-- A register index that a 2-bit field can hold (R28). -/
def RegIdx.nameable (r : RegIdx) : Bool := decide (r.val < 4)

/-- Every register operand of the instruction is 0 to 3 (R28); the other operands are as wide as their fields. -/
def Instr.wellFormed : Instr → Bool
  | .regMoveI rd _ | .regAddI rd _ | .regSubI rd _ | .regAndI rd _ | .regOrI rd _ => RegIdx.nameable rd
  | .regMove rd rs | .regLoadInd rd rs | .regStoreInd rd rs | .regAdd rd rs | .regSub rd rs | .regAnd rd rs
  | .regOr rd rs | .regXor rd rs => RegIdx.nameable rd && RegIdx.nameable rs
  | .regRol rd | .regRor rd | .regAsl rd => RegIdx.nameable rd
  | .accMove _ | .accAdd _ | .accSub _ | .accAnd _ | .accLoad _ | .accStore _ | .accAddm _ | .accSubm _
  | .accJumpu _ | .accJumpz _ | .accJumpnz _ | .accJumpc _
  | .regLoad _ | .regStore _ | .regAddm _ | .regSubm _ | .regJumpu _ | .regJumpz _ | .regJumpnz _ | .regJumpc _
  | .regCall _ | .regXop1 | .regXop2 | .regXop3 | .regXop4 | .regXop5 | .regRet => true

/-- The variant whose instruction set the instruction belongs to (R2, R90 to R92). -/
def Instr.arch : Instr → Arch
  | .accMove _ | .accAdd _ | .accSub _ | .accAnd _ | .accLoad _ | .accStore _ | .accAddm _ | .accSubm _
  | .accJumpu _ | .accJumpz _ | .accJumpnz _ | .accJumpc _ => .acc
  | .regMoveI _ _ | .regAddI _ _ | .regSubI _ _ | .regAndI _ _ | .regOrI _ _ | .regLoad _ | .regStore _
  | .regAddm _ | .regSubm _ | .regJumpu _ | .regJumpz _ | .regJumpnz _ | .regJumpc _ | .regCall _ | .regXop1
  | .regMove _ _ | .regLoadInd _ _ | .regStoreInd _ _ | .regRol _ | .regRor _ | .regAdd _ _ | .regSub _ _
  | .regAnd _ _ | .regOr _ _ | .regXor _ _ | .regAsl _ | .regXop2 | .regXop3 | .regXop4 | .regXop5
  | .regRet => .reg

end Sys2Proof
end

