-- ==== Sys2Proof/Decode.lean ====
section
/-! DEFINITION. Decoding (30_encoding.md R80 to R95): from a word and the construction parameters to an instruction, or
to the rejection "unknown opcode" with the opcode named; and the encoder, its inverse on canonical words (R97). -/

namespace Sys2Proof

/-- The primary opcode, `ir[15:12]` (R82, R84). -/
def opField (w : Word) : BitVec 4 := w.extractLsb' 12 4

/-- The secondary opcode, `ir[3:0]` (R84). -/
def sopField (w : Word) : BitVec 4 := w.extractLsb' 0 4

/-- The 8-bit constant, address or target, `ir[7:0]` (R82, R83, R87). -/
def kField (w : Word) : BitVec 8 := w.extractLsb' 0 8

/-- The 12-bit address or target, `ir[11:0]` (R86). -/
def aField (w : Word) : BitVec 12 := w.extractLsb' 0 12

/-- A 2-bit register field as an index of the register file: always 0 to 3 (R28). -/
def regIndex (f : BitVec 2) : RegIdx := ⟨f.toNat, Nat.lt_trans f.isLt (by decide)⟩

/-- The register field `ir[11:10]` (R85, R87). -/
def rdField (w : Word) : RegIdx := regIndex (w.extractLsb' 10 2)

/-- The register field `ir[9:8]` (R85). -/
def rsField (w : Word) : RegIdx := regIndex (w.extractLsb' 8 2)

/-- The primary opcode that selects the secondary space: `1111b` (R84). -/
def extOpcode : BitVec 4 := 0xF

/-- Why a word is no instruction: its opcode, or pair of opcodes, has no row in `OPMAP`. `sop` is present exactly when
the variant is REG and the primary opcode is the extension value (R93, R242). -/
structure UnknownOpcode where
  op  : BitVec 4
  sop : Option (BitVec 4)
deriving DecidableEq, Repr

/-- The row of a 16-entry table. -/
def rowOf {α : Type} (table : Vector (Option α) 16) (op : BitVec 4) : Option α := table[op.toNat]'op.isLt

/-- The row of the accumulator variant: `JUMPC` is there only with `ACC_HAS_JUMPC` (R90, R172). -/
def accRow (cfg : Config) (op : BitVec 4) : Option AccOp :=
  match rowOf cfg.opmap.acc op with
  | some .jumpc => if cfg.accHasJumpc then some .jumpc else none
  | row => row

/-- The fields of an ACC word, cut by the instruction's mode: A-IMM or A-ABS (R82, R83). Bits 11:8 take no part (R95). -/
def accInstr (op : AccOp) (w : Word) : Instr :=
  match op with
  | .move => .accMove (kField w)
  | .add => .accAdd (kField w)
  | .sub => .accSub (kField w)
  | .and => .accAnd (kField w)
  | .load => .accLoad (kField w)
  | .store => .accStore (kField w)
  | .addm => .accAddm (kField w)
  | .subm => .accSubm (kField w)
  | .jumpu => .accJumpu (kField w)
  | .jumpz => .accJumpz (kField w)
  | .jumpnz => .accJumpnz (kField w)
  | .jumpc => .accJumpc (kField w)

/-- The fields of a REG word, cut by the instruction's mode: R-IMM, R-ABS or R-REG (R84 to R87). The unused bits take
no part (R95). -/
def regInstr (op : RegOp) (w : Word) : Instr :=
  match op with
  | .moveI => .regMoveI (rdField w) (kField w)
  | .addI => .regAddI (rdField w) (kField w)
  | .subI => .regSubI (rdField w) (kField w)
  | .andI => .regAndI (rdField w) (kField w)
  | .load => .regLoad (aField w)
  | .store => .regStore (aField w)
  | .addm => .regAddm (aField w)
  | .subm => .regSubm (aField w)
  | .jumpu => .regJumpu (aField w)
  | .jumpz => .regJumpz (aField w)
  | .jumpnz => .regJumpnz (aField w)
  | .jumpc => .regJumpc (aField w)
  | .call => .regCall (aField w)
  | .orI => .regOrI (rdField w) (kField w)
  | .xop1 => .regXop1
  | .move => .regMove (rdField w) (rsField w)
  | .loadInd => .regLoadInd (rdField w) (rsField w)
  | .storeInd => .regStoreInd (rdField w) (rsField w)
  | .rol => .regRol (rdField w)
  | .ror => .regRor (rdField w)
  | .add => .regAdd (rdField w) (rsField w)
  | .sub => .regSub (rdField w) (rsField w)
  | .and => .regAnd (rdField w) (rsField w)
  | .or => .regOr (rdField w) (rsField w)
  | .xor => .regXor (rdField w) (rsField w)
  | .asl => .regAsl (rdField w)
  | .xop2 => .regXop2
  | .xop3 => .regXop3
  | .xop4 => .regXop4
  | .xop5 => .regXop5
  | .ret => .regRet

/-- An ACC word (R82, R90, R93). -/
def decodeAcc (cfg : Config) (w : Word) : Except UnknownOpcode Instr :=
  match accRow cfg (opField w) with
  | some op => .ok (accInstr op w)
  | none => .error ⟨opField w, none⟩

/-- A REG word (R84, R91, R92, R93). -/
def decodeReg (cfg : Config) (w : Word) : Except UnknownOpcode Instr :=
  if opField w = extOpcode then
    match rowOf cfg.opmap.secondary (sopField w) with
    | some op => .ok (regInstr op w)
    | none => .error ⟨opField w, some (sopField w)⟩
  else
    match rowOf cfg.opmap.primary (opField w) with
    | some op => .ok (regInstr op w)
    | none => .error ⟨opField w, none⟩

/-- "Decode is a function of `ir` and `ARCH` alone" (R80), under the parameter `OPMAP` (R8). -/
def decode (cfg : Config) (w : Word) : Except UnknownOpcode Instr :=
  match cfg.arch with
  | .acc => decodeAcc cfg w
  | .reg => decodeReg cfg w

/-- The decoder under the spec's default parameters for the REG variant, the variant of `State.reset` (log 2), on the
lowest `nbits` bits of `w`. -/
def decodeTableWord (nbits w : Nat) : Option Instr :=
  match decode (Config.default .reg) (BitVec.ofNat 16 (w % 2 ^ nbits)) with
  | .ok i => some i
  | .error _ => none

/-- Formats A-IMM and A-ABS: opcode, zeros, 8-bit operand (R82, R83, R97). -/
def encodeAcc (op : BitVec 4) (k : BitVec 8) : Word := op ++ (0 : BitVec 4) ++ k

/-- Format R-ABS: opcode, 12-bit address (R86, R97). -/
def encodeAbs (op : BitVec 4) (a : BitVec 12) : Word := op ++ a

/-- Format R-IMM: opcode, `rd`, zeros, 8-bit constant (R87, R97). -/
def encodeImm (op : BitVec 4) (rd : RegIdx) (k : BitVec 8) : Word :=
  op ++ BitVec.ofNat 2 rd.val ++ (0 : BitVec 2) ++ k

/-- Format R-REG: the extension value, `rd`, `rs`, zeros, secondary opcode (R85, R97). -/
def encodeReg (sop : BitVec 4) (rd rs : RegIdx) : Word :=
  extOpcode ++ BitVec.ofNat 2 rd.val ++ BitVec.ofNat 2 rs.val ++ (0 : BitVec 4) ++ sop

/-- The canonical word of an instruction, by its row of opcode_table.json: `match` bits set, each argument in its field,
unused bits zero (R97). -/
def encode : Instr → Word
  | .accMove k => encodeAcc 0x0 k
  | .accAdd k => encodeAcc 0x1 k
  | .accSub k => encodeAcc 0x2 k
  | .accAnd k => encodeAcc 0x3 k
  | .accLoad a => encodeAcc 0x4 a
  | .accStore a => encodeAcc 0x5 a
  | .accAddm a => encodeAcc 0x6 a
  | .accSubm a => encodeAcc 0x7 a
  | .accJumpu a => encodeAcc 0x8 a
  | .accJumpz a => encodeAcc 0x9 a
  | .accJumpnz a => encodeAcc 0xA a
  | .accJumpc a => encodeAcc 0xB a
  | .regMoveI rd k => encodeImm 0x0 rd k
  | .regAddI rd k => encodeImm 0x1 rd k
  | .regSubI rd k => encodeImm 0x2 rd k
  | .regAndI rd k => encodeImm 0x3 rd k
  | .regLoad a => encodeAbs 0x4 a
  | .regStore a => encodeAbs 0x5 a
  | .regAddm a => encodeAbs 0x6 a
  | .regSubm a => encodeAbs 0x7 a
  | .regJumpu a => encodeAbs 0x8 a
  | .regJumpz a => encodeAbs 0x9 a
  | .regJumpnz a => encodeAbs 0xA a
  | .regJumpc a => encodeAbs 0xB a
  | .regCall a => encodeAbs 0xC a
  | .regOrI rd k => encodeImm 0xD rd k
  | .regXop1 => encodeAbs 0xE 0
  | .regMove rd rs => encodeReg 0x0 rd rs
  | .regLoadInd rd rs => encodeReg 0x1 rd rs
  | .regStoreInd rd rs => encodeReg 0x2 rd rs
  | .regRol rd => encodeReg 0x3 rd 0
  | .regRor rd => encodeReg 0x4 rd 0
  | .regAdd rd rs => encodeReg 0x5 rd rs
  | .regSub rd rs => encodeReg 0x6 rd rs
  | .regAnd rd rs => encodeReg 0x7 rd rs
  | .regOr rd rs => encodeReg 0x8 rd rs
  | .regXor rd rs => encodeReg 0x9 rd rs
  | .regAsl rd => encodeReg 0xA rd 0
  | .regXop2 => encodeReg 0xB 0 0
  | .regXop3 => encodeReg 0xC 0 0
  | .regXop4 => encodeReg 0xD 0 0
  | .regXop5 => encodeReg 0xE 0 0
  | .regRet => encodeReg 0xF 0 0

end Sys2Proof
end

