-- ==== Sys2Proof/Machine/State.lean ====
section
/-! DEFINITION. The state of one instance of SimpleCPU (10_state.md R20), as plain data; the reasons a step can stop
(60_exceptions.md R241 to R243); and the state right after reset (R37). The fields after `devices` are the MODEL's own,
not the spec's: an input, the counter of the free value, and outputs. -/

namespace Sys2Proof.Machine

/-- The five ALU flags (R31). -/
structure Flags where
  zero     : Bool
  negative : Bool
  positive : Bool
  carry    : Bool
  overflow : Bool
deriving DecidableEq, Repr

/-- The backing array (R33), as cells in canonical form: word `a` is held in the cells `2 * a` (bits 7:0) and
`2 * a + 1` (bits 15:8). No byte order is observable (R56): log 23. -/
abbrev Memory := List Host.Cell

/-- What an unlisted cell reads as: memory is "zero-initialized beyond the loaded program image" (R33). -/
def Memory.unlisted : BitVec 8 := 0

/-- A device identifier: "any type with equality serves" (R59). -/
abbrev DeviceId := Nat

/-- The name of a hook function of the platform (R62). What the function does is outside the block (R35). -/
abbrev HookId := Nat

/-- The pair of hooks a device registers (R59, R62). -/
structure HookPair where
  onRead  : HookId
  onWrite : HookId
deriving DecidableEq, Repr

/-- The mapping table `MAP`, two tables: address to device identifier, device identifier to hook pair (R34, R59). Both
lists are sorted by key. -/
structure DeviceMap where
  addrs : List (Nat × DeviceId)
  hooks : List (DeviceId × HookPair)
deriving DecidableEq, Repr

/-- What an access is (R74): the fetch of a step, a data read, a data write. -/
inductive AccessKind where
  | fetch
  | read
  | write
deriving DecidableEq, Repr

/-- Where an access went (R74): the backing array, or a device, and then through which of its hooks (R60, R61). -/
inductive Target where
  | backing
  | device (id : DeviceId) (hook : HookId)
deriving DecidableEq, Repr

/-- One event of the history (R74; a host access between steps makes one too, log 30): the access, its address, and the
word read or written. -/
structure Event where
  kind   : AccessKind
  addr   : Nat
  word   : Word
  target : Target
deriving DecidableEq, Repr

/-- What the last step told the host (R111); `none` before the first step. No step reads it: "the core keeps no record
of the outcome". -/
inductive Report where
  | none
  | ok
  | halted
  | fault
deriving DecidableEq, Repr

/-- The state. `cfg` holds the construction-time parameters, which are not state of the block (R21) and which no step
changes (R2): log 1. `acc` is the ACC variant's (R25), `x` the REG variant's (R27). -/
structure State where
  cfg        : Config
  pc         : Word
  ir         : Word
  acc        : Word
  x          : Vector Word 8
  flags      : Flags
  mem        : Memory
  devices    : DeviceMap
  detectHalt : Bool          -- input: `detect_halt` of the next step (R110, R117; log 14)
  draws      : Nat           -- how many device words have been drawn (R60; log 19)
  history    : List Event    -- the accesses made, newest first (R74; log 30)
  report     : Report        -- output: the outcome of the last step (R111; log 15)
  faulted    : Bool          -- the fault mark, which no step clears (R249, D13; log 16)
deriving DecidableEq, Repr

/-- Why the machine stops (R241 to R243), each with what the fault records and with `left`, the state as the step left
it, in which control returns to the host (R240, R248). -/
inductive Fault where
  /-- `BoundsFault(address)` (R241). Raised by the fetch and by the register-indirect LOAD and STORE when the address is
  not below MEMSIZE, and by a host access out of range. Safe: the hardware stops here too. -/
  | bounds (address : Nat) (left : State)
  /-- `UnknownOpcodeFault(op, sop)` (R242). Raised by the decode phase when `OPMAP` has no row. Safe: the hardware stops
  here too. -/
  | unknownOpcode (op : BitVec 4) (sop : Option (BitVec 4)) (left : State)
  /-- `UnimplementedFault(mnemonic)` (R243). Raised by CALL, XOP1 to XOP5 and RET. Safe: the hardware stops here too. -/
  | unimplemented (op : RegOp) (left : State)
  /-- The register-index form of the bounds error (R27, R29). Raised by a host access to a register above 7 only, never
  by a step. Safe: the hardware fails here too. -/
  | registerIndex (index : Nat) (left : State)
deriving DecidableEq, Repr

/-- Why the model gives no meaning. -/
inductive Refusal where
  /-- An instruction without a meaning. Raised by no arm of exec: every instruction has its meaning. Safe. -/
  | notModelled (mnemonic : String)
  /-- `memmap` of an address not below MEMSIZE, which the spec leaves outside the contract (R62, D14, U10). Raised by
  the host operation `State.memmap` only. Safe. -/
  | mappingOutOfBounds (address : Nat)
  /-- `unmap` of an identifier that is not registered, "not stated" (R63, U10). Raised by the host operation
  `State.unmap` only. Safe. -/
  | unknownDevice (id : DeviceId)
  /-- A host access to the accumulator of a REG machine or to a register of an ACC machine, which has none (R20, R25).
  Raised by `hostGet` and `hostSet` only. Safe. -/
  | noSuchRegister
deriving DecidableEq, Repr

/-- The three outcomes of a step over this machine's types. -/
abbrev Result := Host.Outcome State Fault Refusal

/-- Every flag false (R37, D3; log 5). -/
def Flags.cleared : Flags :=
  { zero := false, negative := false, positive := false, carry := false, overflow := false }

/-- The values of R37 for given parameters and an empty image: `pc` at `RESET_PC`, everything else zero, false or
empty. -/
def State.resetWith (cfg : Config) : State :=
  { cfg := cfg, pc := cfg.resetPc, ir := 0, acc := 0, x := #v[0, 0, 0, 0, 0, 0, 0, 0], flags := Flags.cleared,
    mem := [], devices := { addrs := [], hooks := [] }, detectHalt := true, draws := 0, history := [],
    report := .none, faulted := false }

/-- The machine right after reset (R37, R270): the REG variant (log 2) with the default parameters (R8) and an empty
image; `State.construct` of Platform.lean is reset with any parameters and image. -/
def State.reset : State := State.resetWith (Config.default .reg)

end Sys2Proof.Machine
end

