-- ==== Sys2Proof/Machine/Flags.lean ====
section
/-! DEFINITION. The ALU (41_alu.md): its eight operations at width `N`, the markers each result carries, and the five
flags every operation writes. -/

namespace Sys2Proof.Machine

/-- A result with its transient markers (R131). -/
structure AluOut (n : Nat) where
  r        : BitVec n
  carry    : Bool
  overflow : Bool
deriving DecidableEq, Repr

/-- Addition (R132, R137): the exact unsigned sum, narrowed; carry when it does not fit; overflow when two operands of
one sign give a result of the other. -/
def aluAdd {n : Nat} (a b : BitVec n) : AluOut n :=
  let r := BitVec.ofNat n (a.toNat + b.toNat)
  { r := r, carry := decide (2 ^ n ≤ a.toNat + b.toNat), overflow := (a.msb == b.msb) && (r.msb != a.msb) }

/-- Subtraction `a - b` (R133, R138): `trunc_N(a + 2^N - b)`; never a carry; overflow when the operands' signs differ
and the result's differs from `a`'s. -/
def aluSub {n : Nat} (a b : BitVec n) : AluOut n :=
  let r := BitVec.ofNat n (a.toNat + 2 ^ n - b.toNat)
  { r := r, carry := false, overflow := (a.msb != b.msb) && (r.msb != a.msb) }

/-- A result whose operation clears both markers: "Bitwise/shift/rotate operations always clear carry and overflow"
(R136). -/
def aluPlain {n : Nat} (r : BitVec n) : AluOut n := { r := r, carry := false, overflow := false }

/-- Bitwise and (R139). -/
def aluAnd {n : Nat} (a b : BitVec n) : AluOut n := aluPlain (a &&& b)

/-- Bitwise or (R140). -/
def aluOr {n : Nat} (a b : BitVec n) : AluOut n := aluPlain (a ||| b)

/-- Bitwise exclusive or (R141). -/
def aluXor {n : Nat} (a b : BitVec n) : AluOut n := aluPlain (a ^^^ b)

/-- Rotation left by one place: bit 15 becomes bit 0 (R142). -/
def aluRol (a : BitVec 16) : AluOut 16 := aluPlain ((a <<< 1) ||| (a >>> 15))

/-- Rotation right by one place: bit 0 becomes bit 15 (R143). -/
def aluRor (a : BitVec 16) : AluOut 16 := aluPlain ((a >>> 1) ||| ((a &&& 1) <<< 15))

/-- Shift left by one place, zero into bit 0, bit 15 lost (R144). -/
def aluAsl (a : BitVec 16) : AluOut 16 := aluPlain (a <<< 1)

/-- The five flags of a result (R31, R136). `positiveOnZero` is the parameter of R8 (D4). -/
def flagsOf {n : Nat} (positiveOnZero : Bool) (o : AluOut n) : Flags :=
  { zero := o.r == 0
    negative := o.r.msb
    positive := !o.r.msb && (o.r != 0 || positiveOnZero)
    carry := o.carry
    overflow := o.overflow }

end Sys2Proof.Machine
end

