-- ==== Sys2Proof/Machine/Ops.lean ====
section
/-! DEFINITION. The named operations over memory, the mapping table, registers and the program counter: the memory
controller (20_memory.md R51 to R54), the register file and accumulator (10_state.md R25, R27), the program-counter
update (40_cycle.md R114, R115), and the one way a fault is raised (60_exceptions.md R240). -/

namespace Sys2Proof.Machine

/-! Tables with a Nat key, sorted by key. -/

/-- The entry of a key. -/
def tableGet {β : Type} : List (Nat × β) → Nat → Option β
  | [], _ => none
  | c :: m, k => if c.1 = k then some c.2 else tableGet m k

/-- The table without a key. -/
def tableErase {β : Type} (m : List (Nat × β)) (k : Nat) : List (Nat × β) :=
  m.filter (fun c => decide (c.1 ≠ k))

/-- The table with one more entry, before the first larger key. -/
def tableInsert {β : Type} : List (Nat × β) → Nat → β → List (Nat × β)
  | [], k, v => [(k, v)]
  | c :: m, k, v => if k < c.1 then (k, v) :: c :: m else c :: tableInsert m k v

/-- The table with the key's entry replaced. -/
def tablePut {β : Type} (m : List (Nat × β)) (k : Nat) (v : β) : List (Nat × β) :=
  tableInsert (tableErase m k) k v

/-- Keys strictly rising. -/
def tableRising {β : Type} : List (Nat × β) → Bool
  | [] => true
  | [_] => true
  | c :: d :: m => decide (c.1 < d.1) && tableRising (d :: m)

/-! The backing array (R33). -/

/-- The canonical form: addresses strictly rising, no entry equal to what an unlisted cell reads as. -/
def Memory.wf (m : Memory) : Bool := tableRising m && m.all (fun c => decide (c.2 ≠ Memory.unlisted))

/-- Every listed cell lies below `n`. -/
def Memory.below (m : Memory) (n : Nat) : Bool := m.all (fun c => decide (c.1 < n))

/-- One cell. -/
def Memory.byte (m : Memory) (k : Nat) : BitVec 8 := (tableGet m k).getD Memory.unlisted

/-- Writes one cell; the value an unlisted cell reads as removes the entry. -/
def Memory.setByte (m : Memory) (k : Nat) (b : BitVec 8) : Memory :=
  if b = Memory.unlisted then tableErase m k else tablePut m k b

/-- The word at a word address (R33). -/
def Memory.word (m : Memory) (a : Nat) : Word := m.byte (2 * a + 1) ++ m.byte (2 * a)

/-- Writes the word at a word address. -/
def Memory.setWord (m : Memory) (a : Nat) (v : Word) : Memory :=
  (m.setByte (2 * a) (v.extractLsb' 0 8)).setByte (2 * a + 1) (v.extractLsb' 8 8)

/-- MEMSIZE: 256 words in ACC, 4096 in REG (R7, R33, R50). -/
def memSize : Arch → Nat
  | .acc => 256
  | .reg => 4096

/-! Plain updates of the state. -/

/-- `pc <- target` (R22). -/
def State.setPc (s : State) (a : Word) : State := { s with pc := a }

/-- `pc <- trunc_16(pc + 1)` (R114). -/
def State.advance (s : State) : State := { s with pc := s.pc + 1 }

/-- `ir <- w` (R24). -/
def State.setIr (s : State) (w : Word) : State := { s with ir := w }

/-- `acc <- v` (R25). -/
def State.setAcc (s : State) (v : Word) : State := { s with acc := v }

/-- `x[i]` (R27). -/
def State.reg (s : State) (i : RegIdx) : Word := s.x[i.val]

/-- `x[i] <- v` (R27). -/
def State.setReg (s : State) (i : RegIdx) (v : Word) : State := { s with x := s.x.set i.val v i.isLt }

/-- All five flags at once (R136). -/
def State.setFlags (s : State) (f : Flags) : State := { s with flags := f }

/-- `mem[a] <- v` in the backing array (R54). -/
def State.setMemWord (s : State) (a : Nat) (v : Word) : State := { s with mem := s.mem.setWord a v }

/-- One more device word has been drawn (log 19). -/
def State.countDraw (s : State) : State := { s with draws := s.draws + 1 }

/-- One more event in the history (R74). -/
def State.log (s : State) (e : Event) : State := { s with history := e :: s.history }

/-- The outcome told to the host (R111). -/
def State.setReport (s : State) (r : Report) : State := { s with report := r }

/-- The fault mark, and the outcome `fault` (R111, R249, D13). -/
def State.markFaulted (s : State) : State := { s with report := .fault, faulted := true }

/-! Faults. -/

/-- `raise <Fault>(info)` (R240): the step ends at once; nothing is saved and `pc` stays, since there is no trap entry
(R247); control returns to the host with the state as the step left it (R248), marked (R249, D13). -/
def raise (f : State → Fault) (s : State) : Result := .fault (f s.markFaulted)

/-! The memory controller. -/

/-- Where the router sends an in-bounds address: to a registered device with its hooks, or nowhere (R34, R53, R59). -/
def DeviceMap.route (m : DeviceMap) (a : Nat) : Option (DeviceId × HookPair) :=
  match tableGet m.addrs a with
  | none => none
  | some id =>
    match tableGet m.hooks id with
    | none => none
    | some h => some (id, h)

/-- `MemRead(a, 1)` (R53): the offending address if `a` is out of bounds; a device's word, which is a free value (R60),
if `a` is mapped; else the backing word. The access is recorded (R74). -/
def memRead (kind : AccessKind) (a : Nat) (s : State) : Except Nat (Word × State) :=
  if memSize s.cfg.arch ≤ a then .error a
  else
    match s.devices.route a with
    | some (id, h) =>
      .ok (Config.deviceWord s.draws, s.countDraw.log ⟨kind, a, Config.deviceWord s.draws, .device id h.onRead⟩)
    | none => .ok (s.mem.word a, s.log ⟨kind, a, s.mem.word a, .backing⟩)

/-- `MemWrite(a, 1, v)` (R54): the offending address if `a` is out of bounds; the device's write hook is called, and the
backing word stays, if `a` is mapped (R61); else the backing word is written. The access is recorded (R74). -/
def memWrite (a : Nat) (v : Word) (s : State) : Except Nat State :=
  if memSize s.cfg.arch ≤ a then .error a
  else
    match s.devices.route a with
    | some (id, h) => .ok (s.log ⟨.write, a, v, .device id h.onWrite⟩)
    | none => .ok ((s.setMemWord a v).log ⟨.write, a, v, .backing⟩)

/-- The execute phase of an instruction with one data read (R58, R119): the read, then the rest, which gets the word. -/
def withRead (a : Nat) (s : State) (rest : Word → State → State) : Result :=
  match memRead .read a s with
  | .error b => raise (Fault.bounds b) s
  | .ok (m, t) => .next (rest m t).advance

/-- The execute phase of an instruction with one data write (R58, R119). -/
def withWrite (a : Nat) (v : Word) (s : State) : Result :=
  match memWrite a v s with
  | .error b => raise (Fault.bounds b) s
  | .ok t => .next t.advance

/-- The net effect of a conditional jump (R115): taken, `pc` is the target; not taken, one more. -/
def jumpIf (c : Bool) (target : Word) (s : State) : Result :=
  .next (if c then s.setPc target else s.advance)

end Sys2Proof.Machine
end

