-- ==== Sys2Proof/Machine/Operands.lean ====
section
/-! DEFINITION. Operand forms and write-backs: the immediates (30_encoding.md R88), the absolute addresses and targets
(R83, R86), the accumulator as the 8-bit ALU sees it (10_state.md R26, 42_acc_instructions.md R160), and the write of an
ALU result with its flags. -/

namespace Sys2Proof.Machine

/-- `zext_16(v)` (R14). -/
def zext16 {n : Nat} (v : BitVec n) : Word := v.setWidth 16

/-- `sext_16(v)`: `v` if bit 7 is clear, else `v + 0xFF00` (R14, R88). -/
def sext16 (v : BitVec 8) : Word := if v.msb then v.setWidth 16 + 0xFF00 else v.setWidth 16

/-- `trunc_8(v)` (R14): a 16-bit value as an 8-bit ALU operand (R26, R130). -/
def trunc8 (v : Word) : BitVec 8 := v.setWidth 8

/-- The word address of an absolute operand (R83, R86): 8 bits in ACC, 12 in REG. -/
def absAddr {n : Nat} (a : BitVec n) : Nat := (zext16 a).toNat

/-- `a8`: the accumulator as the 8-bit ALU sees it (R160). -/
def accOperand (s : State) : BitVec 8 := trunc8 s.acc

/-- `wb(r)`: how an 8-bit result enters the accumulator (R26, R160, D5). -/
def writeback (w : Writeback) (r : BitVec 8) : Word :=
  match w with
  | .zext => zext16 r
  | .sext => sext16 r

/-- What an ACC LOAD puts into the accumulator (R165, D6). -/
def accLoaded (cfg : Config) (m : Word) : Word := if cfg.accLoadFull then m else zext16 (trunc8 m)

/-- An ACC ALU instruction's effect: all five flags, then the accumulator (R32, R119, R160). -/
def accAlu (o : AluOut 8) (s : State) : State :=
  (s.setFlags (flagsOf s.cfg.positiveOnZero o)).setAcc (writeback s.cfg.accWriteback o.r)

/-- A REG ALU instruction's effect: all five flags, then `x[rd]` (R32, R119, R180, R210). -/
def regAlu (rd : RegIdx) (o : AluOut 16) (s : State) : State :=
  (s.setFlags (flagsOf s.cfg.positiveOnZero o)).setReg rd o.r

end Sys2Proof.Machine
end

