-- ==== Sys2Proof/Machine/Acc.lean ====
section
/-! DEFINITION. The accumulator variant's instructions (42_acc_instructions.md R161 to R172): the execute phase of each
and its program-counter update (40_cycle.md R114). -/

namespace Sys2Proof.Machine

/-- `MOVE #k` (R161): `acc <- zext_16(k)`; no flag. -/
def execAccMove (k : BitVec 8) (s : State) : Result := .next (s.setAcc (zext16 k)).advance

/-- `ADD #k` (R162). -/
def execAccAdd (k : BitVec 8) (s : State) : Result := .next (accAlu (aluAdd (accOperand s) k) s).advance

/-- `SUB #k` (R163): the accumulator is the minuend. -/
def execAccSub (k : BitVec 8) (s : State) : Result := .next (accAlu (aluSub (accOperand s) k) s).advance

/-- `AND #k` (R164). -/
def execAccAnd (k : BitVec 8) (s : State) : Result := .next (accAlu (aluAnd (accOperand s) k) s).advance

/-- `LOAD a` (R165): all 16 bits with the default `ACC_LOAD_FULL`; no flag. -/
def execAccLoad (a : BitVec 8) (s : State) : Result :=
  withRead (absAddr a) s (fun m t => t.setAcc (accLoaded t.cfg m))

/-- `STORE a` (R166): all 16 bits of `acc`; no flag. -/
def execAccStore (a : BitVec 8) (s : State) : Result := withWrite (absAddr a) s.acc s

/-- `ADDM a` (R167): the memory word is narrowed like any ALU operand. -/
def execAccAddm (a : BitVec 8) (s : State) : Result :=
  withRead (absAddr a) s (fun m t => accAlu (aluAdd (accOperand t) (trunc8 m)) t)

/-- `SUBM a` (R168). -/
def execAccSubm (a : BitVec 8) (s : State) : Result :=
  withRead (absAddr a) s (fun m t => accAlu (aluSub (accOperand t) (trunc8 m)) t)

/-- `JUMPU a` (R169). The halt-loop check comes before this phase (R116) and stands in Cycle.lean. -/
def execAccJumpu (a : BitVec 8) (s : State) : Result := .next (s.setPc (zext16 a))

/-- `JUMPZ a` (R170). -/
def execAccJumpz (a : BitVec 8) (s : State) : Result := jumpIf s.flags.zero (zext16 a) s

/-- `JUMPNZ a` (R171). -/
def execAccJumpnz (a : BitVec 8) (s : State) : Result := jumpIf (!s.flags.zero) (zext16 a) s

/-- `JUMPC a` (R172). Decoded only with `ACC_HAS_JUMPC`. -/
def execAccJumpc (a : BitVec 8) (s : State) : Result := jumpIf s.flags.carry (zext16 a) s

end Sys2Proof.Machine
end

