-- ==== Sys2Proof/Machine/RegPrimary.lean ====
section
/-! DEFINITION. The register variant's primary instructions (43_reg_primary_instructions.md R181 to R195): the execute
phase of each and its program-counter update (40_cycle.md R114). -/

namespace Sys2Proof.Machine

/-- `MOVE Rd, #k` (R181): sign-extended; no flag. -/
def execRegMoveI (rd : RegIdx) (k : BitVec 8) (s : State) : Result := .next (s.setReg rd (sext16 k)).advance

/-- `ADD Rd, #k` (R182): sign-extended. -/
def execRegAddI (rd : RegIdx) (k : BitVec 8) (s : State) : Result :=
  .next (regAlu rd (aluAdd (s.reg rd) (sext16 k)) s).advance

/-- `SUB Rd, #k` (R183): sign-extended; the register is the minuend. -/
def execRegSubI (rd : RegIdx) (k : BitVec 8) (s : State) : Result :=
  .next (regAlu rd (aluSub (s.reg rd) (sext16 k)) s).advance

/-- `AND Rd, #k` (R184): zero-extended. -/
def execRegAndI (rd : RegIdx) (k : BitVec 8) (s : State) : Result :=
  .next (regAlu rd (aluAnd (s.reg rd) (zext16 k)) s).advance

/-- `OR Rd, #k` (R194): zero-extended. -/
def execRegOrI (rd : RegIdx) (k : BitVec 8) (s : State) : Result :=
  .next (regAlu rd (aluOr (s.reg rd) (zext16 k)) s).advance

/-- `LOAD RA, a` (R185): into `x[0]`; no flag. -/
def execRegLoad (a : BitVec 12) (s : State) : Result := withRead (absAddr a) s (fun m t => t.setReg 0 m)

/-- `STORE RA, a` (R186): from `x[0]`; no flag. -/
def execRegStore (a : BitVec 12) (s : State) : Result := withWrite (absAddr a) (s.reg 0) s

/-- `ADDM RA, a` (R187): on `x[0]`. -/
def execRegAddm (a : BitVec 12) (s : State) : Result :=
  withRead (absAddr a) s (fun m t => regAlu 0 (aluAdd (t.reg 0) m) t)

/-- `SUBM RA, a` (R188): on `x[0]`. -/
def execRegSubm (a : BitVec 12) (s : State) : Result :=
  withRead (absAddr a) s (fun m t => regAlu 0 (aluSub (t.reg 0) m) t)

/-- `JUMPU a` (R189). The halt-loop check comes before this phase (R116) and stands in Cycle.lean. -/
def execRegJumpu (a : BitVec 12) (s : State) : Result := .next (s.setPc (zext16 a))

/-- `JUMPZ a` (R190). -/
def execRegJumpz (a : BitVec 12) (s : State) : Result := jumpIf s.flags.zero (zext16 a) s

/-- `JUMPNZ a` (R191). -/
def execRegJumpnz (a : BitVec 12) (s : State) : Result := jumpIf (!s.flags.zero) (zext16 a) s

/-- `JUMPC a` (R192). -/
def execRegJumpc (a : BitVec 12) (s : State) : Result := jumpIf s.flags.carry (zext16 a) s

/-- `CALL a` (R193): `raise UnimplementedFault(CALL)`; the target is decoded and not used. -/
def execRegCall (_a : BitVec 12) (s : State) : Result := raise (Fault.unimplemented .call) s

/-- `XOP1` (R195): `raise UnimplementedFault(XOP1)`. -/
def execRegXop1 (s : State) : Result := raise (Fault.unimplemented .xop1) s

end Sys2Proof.Machine
end

