-- ==== Sys2Proof/Machine/RegSecondary.lean ====
section
/-! DEFINITION. The register variant's secondary instructions (44_reg_secondary_instructions.md R211 to R226): the
execute phase of each and its program-counter update (40_cycle.md R114). -/

namespace Sys2Proof.Machine

/-- `MOVE Rd, Rs` (R211); no flag. -/
def execRegMove (rd rs : RegIdx) (s : State) : Result := .next (s.setReg rd (s.reg rs)).advance

/-- `LOAD Rd, (Rs)` (R212): the address is all 16 bits of `x[rs]`, not masked; no flag. -/
def execRegLoadInd (rd rs : RegIdx) (s : State) : Result := withRead (s.reg rs).toNat s (fun m t => t.setReg rd m)

/-- `STORE Rd, (Rs)` (R213): `rd` is the data, `rs` the address; no flag. -/
def execRegStoreInd (rd rs : RegIdx) (s : State) : Result := withWrite (s.reg rs).toNat (s.reg rd) s

/-- `ROL Rd` (R214). -/
def execRegRol (rd : RegIdx) (s : State) : Result := .next (regAlu rd (aluRol (s.reg rd)) s).advance

/-- `ROR Rd` (R215). -/
def execRegRor (rd : RegIdx) (s : State) : Result := .next (regAlu rd (aluRor (s.reg rd)) s).advance

/-- `ADD Rd, Rs` (R216). -/
def execRegAdd (rd rs : RegIdx) (s : State) : Result := .next (regAlu rd (aluAdd (s.reg rd) (s.reg rs)) s).advance

/-- `SUB Rd, Rs` (R217): `x[rd]` is the minuend. -/
def execRegSub (rd rs : RegIdx) (s : State) : Result := .next (regAlu rd (aluSub (s.reg rd) (s.reg rs)) s).advance

/-- `AND Rd, Rs` (R218). -/
def execRegAnd (rd rs : RegIdx) (s : State) : Result := .next (regAlu rd (aluAnd (s.reg rd) (s.reg rs)) s).advance

/-- `OR Rd, Rs` (R219). -/
def execRegOr (rd rs : RegIdx) (s : State) : Result := .next (regAlu rd (aluOr (s.reg rd) (s.reg rs)) s).advance

/-- `XOR Rd, Rs` (R220). -/
def execRegXor (rd rs : RegIdx) (s : State) : Result := .next (regAlu rd (aluXor (s.reg rd) (s.reg rs)) s).advance

/-- `ASL Rd` (R221). -/
def execRegAsl (rd : RegIdx) (s : State) : Result := .next (regAlu rd (aluAsl (s.reg rd)) s).advance

/-- `XOP2` (R222): `raise UnimplementedFault(XOP2)`. -/
def execRegXop2 (s : State) : Result := raise (Fault.unimplemented .xop2) s

/-- `XOP3` (R223): `raise UnimplementedFault(XOP3)`. -/
def execRegXop3 (s : State) : Result := raise (Fault.unimplemented .xop3) s

/-- `XOP4` (R224): `raise UnimplementedFault(XOP4)`. -/
def execRegXop4 (s : State) : Result := raise (Fault.unimplemented .xop4) s

/-- `XOP5` (R225): `raise UnimplementedFault(XOP5)`. -/
def execRegXop5 (s : State) : Result := raise (Fault.unimplemented .xop5) s

/-- `RET` (R226): `raise UnimplementedFault(RET)`. -/
def execRegRet (s : State) : Result := raise (Fault.unimplemented .ret) s

end Sys2Proof.Machine
end

