-- ==== Sys2Proof/Machine/Dispatch.lean ====
section
/-! DEFINITION. The execute phase: one arm per instruction, each one call of its meaning (40_cycle.md R119). -/

namespace Sys2Proof.Machine

/-- `Execute(I, args)` with the program-counter update (R110, R114, R119). -/
def exec (i : Instr) (s : State) : Host.Outcome State Fault Refusal :=
  match i with
  | .accMove k => Sys2Proof.Machine.execAccMove k s
  | .accAdd k => Sys2Proof.Machine.execAccAdd k s
  | .accSub k => Sys2Proof.Machine.execAccSub k s
  | .accAnd k => Sys2Proof.Machine.execAccAnd k s
  | .accLoad a => Sys2Proof.Machine.execAccLoad a s
  | .accStore a => Sys2Proof.Machine.execAccStore a s
  | .accAddm a => Sys2Proof.Machine.execAccAddm a s
  | .accSubm a => Sys2Proof.Machine.execAccSubm a s
  | .accJumpu a => Sys2Proof.Machine.execAccJumpu a s
  | .accJumpz a => Sys2Proof.Machine.execAccJumpz a s
  | .accJumpnz a => Sys2Proof.Machine.execAccJumpnz a s
  | .accJumpc a => Sys2Proof.Machine.execAccJumpc a s
  | .regMoveI rd k => Sys2Proof.Machine.execRegMoveI rd k s
  | .regAddI rd k => Sys2Proof.Machine.execRegAddI rd k s
  | .regSubI rd k => Sys2Proof.Machine.execRegSubI rd k s
  | .regAndI rd k => Sys2Proof.Machine.execRegAndI rd k s
  | .regLoad a => Sys2Proof.Machine.execRegLoad a s
  | .regStore a => Sys2Proof.Machine.execRegStore a s
  | .regAddm a => Sys2Proof.Machine.execRegAddm a s
  | .regSubm a => Sys2Proof.Machine.execRegSubm a s
  | .regJumpu a => Sys2Proof.Machine.execRegJumpu a s
  | .regJumpz a => Sys2Proof.Machine.execRegJumpz a s
  | .regJumpnz a => Sys2Proof.Machine.execRegJumpnz a s
  | .regJumpc a => Sys2Proof.Machine.execRegJumpc a s
  | .regCall a => Sys2Proof.Machine.execRegCall a s
  | .regOrI rd k => Sys2Proof.Machine.execRegOrI rd k s
  | .regXop1 => Sys2Proof.Machine.execRegXop1 s
  | .regMove rd rs => Sys2Proof.Machine.execRegMove rd rs s
  | .regLoadInd rd rs => Sys2Proof.Machine.execRegLoadInd rd rs s
  | .regStoreInd rd rs => Sys2Proof.Machine.execRegStoreInd rd rs s
  | .regRol rd => Sys2Proof.Machine.execRegRol rd s
  | .regRor rd => Sys2Proof.Machine.execRegRor rd s
  | .regAdd rd rs => Sys2Proof.Machine.execRegAdd rd rs s
  | .regSub rd rs => Sys2Proof.Machine.execRegSub rd rs s
  | .regAnd rd rs => Sys2Proof.Machine.execRegAnd rd rs s
  | .regOr rd rs => Sys2Proof.Machine.execRegOr rd rs s
  | .regXor rd rs => Sys2Proof.Machine.execRegXor rd rs s
  | .regAsl rd => Sys2Proof.Machine.execRegAsl rd s
  | .regXop2 => Sys2Proof.Machine.execRegXop2 s
  | .regXop3 => Sys2Proof.Machine.execRegXop3 s
  | .regXop4 => Sys2Proof.Machine.execRegXop4 s
  | .regXop5 => Sys2Proof.Machine.execRegXop5 s
  | .regRet => Sys2Proof.Machine.execRegRet s

end Sys2Proof.Machine
end

