-- ==== Sys2Proof/Machine/Cycle.lean ====
section
/-! DEFINITION. The fetch-decode-execute step (40_cycle.md R110): fetch, decode, halt-loop detection, execute. -/

namespace Sys2Proof.Machine

/-- Fetch (R112): `ir <- MemRead(pc, 1)`, or the bounds fault with `ir` as it was (R248). -/
def fetch (s : State) : Except Fault State :=
  match memRead .fetch s.pc.toNat s with
  | .error a => .error (.bounds a s.markFaulted)
  | .ok (w, t) => .ok (t.setIr w)

/-- The target of a JUMPU, the one instruction that halt-loop detection looks at (R116, D12). -/
def jumpuTarget : Instr → Option Word
  | .accJumpu a => some (zext16 a)
  | .regJumpu a => some (zext16 a)
  | _ => none

/-- Halt-loop detection (R116): on, a JUMPU, and its target is the current `pc`. -/
def haltLoop (detect : Bool) (i : Instr) (s : State) : Bool := detect && (jumpuTarget i == some s.pc)

/-- A step that executed its instruction to its end answers `ok` (R111). -/
def reportOk : Result → Result
  | .next t => .next (t.setReport .ok)
  | .fault f => .fault f
  | .refused r => .refused r

/-- Decode of the fetched word, the halt-loop check, and execute (R110, R113, R116). -/
def decodeAndExecute (detect : Bool) (s : State) : Result :=
  match decode s.cfg s.ir with
  | .error e => raise (Fault.unknownOpcode e.op e.sop) s
  | .ok i => if haltLoop detect i s then .next (s.setReport .halted) else reportOk (exec i s)

/-- `step(detect_halt)` (R110). -/
def stepWith (detect : Bool) (s : State) : Result :=
  match fetch s with
  | .error f => .fault f
  | .ok t => decodeAndExecute detect t

/-- The state with the word `w` in the backing array where the next fetch reads, and that address not mapped to a
device (log 29). -/
def placeAtPc (s : State) (w : Word) : State :=
  { s with
    mem := s.mem.setWord s.pc.toNat w
    devices := { s.devices with addrs := tableErase s.devices.addrs s.pc.toNat } }

end Sys2Proof.Machine
end

