-- ==== Sys2Proof/Machine/Step.lean ====
section
/-! DEFINITION. One step of the machine, with the host's input `detect_halt` taken from the state (log 14); and the
placing of an instruction where the next step fetches it. -/

namespace Sys2Proof.Machine

/-- One fetch-decode-execute cycle (R10, R110). -/
def step (s : State) : Host.Outcome State Fault Refusal := stepWith s.detectHalt s

/-- The state with the instruction whose lowest `nbits` bits are `w` stored at `pc` (log 29). -/
def State.withFetchWord (s : State) (nbits w : Nat) : State :=
  placeAtPc s (BitVec.ofNat 16 (w % 2 ^ nbits))

end Sys2Proof.Machine
end

