-- ==== Sys2Proof/Machine/Platform.lean ====
section
/-! DEFINITION. What the host does between steps (70_reset_and_hazards.md R270, R272, R284; 20_memory.md R62, R63):
construction with an image, `memmap`, `unmap`, and the reading and writing of state. None of it is part of a step. -/

namespace Sys2Proof.Machine

/-- The words of an image in the backing array, upward from an address (R272). -/
def loadFrom (m : Memory) (a : Nat) : List Word → Memory
  | [] => m
  | w :: ws => loadFrom (m.setWord a w) (a + 1) ws

/-- `reset(IMAGE)` (R270): every element at its reset value, the image at address 0 upward, cut to MEMSIZE (R272). -/
def State.construct (cfg : Config) (image : List Word) : State :=
  { State.resetWith cfg with mem := loadFrom [] 0 (image.take (memSize cfg.arch)) }

/-- Every address of the set now maps to the device, whatever it mapped to before (R62). -/
def mapAddrs (id : DeviceId) (addrs : List Nat) (m : List (Nat × DeviceId)) : List (Nat × DeviceId) :=
  addrs.foldl (fun t a => tablePut t a id) m

/-- `memmap(device_id, address_set, on_read, on_write)` (R62). An address out of bounds is outside the contract (D14,
U10). DESIGN CHOICE: a device all of whose addresses are overwritten keeps its hook pair, so that it stays registered and
a later `unmap` of it succeeds; what happens to that pair "is not stated" (log 38). -/
def State.memmap (id : DeviceId) (addrs : List Nat) (h : HookPair) (s : State) : Result :=
  match addrs.find? (fun a => decide (memSize s.cfg.arch ≤ a)) with
  | some a => .refused (.mappingOutOfBounds a)
  | none => .next { s with
      devices := { addrs := mapAddrs id addrs s.devices.addrs, hooks := tablePut s.devices.hooks id h } }

/-- `unmap(device_id)`: "removes all addresses owned by that device and its hook pair" (R63). -/
def State.unmap (id : DeviceId) (s : State) : Result :=
  match tableGet s.devices.hooks id with
  | none => .refused (.unknownDevice id)
  | some _ => .next { s with
      devices := { addrs := s.devices.addrs.filter (fun c => decide (c.2 ≠ id)), hooks := tableErase s.devices.hooks id } }

/-- The host's choice of `detect_halt` for the next step (R117). -/
def State.withDetectHalt (s : State) (b : Bool) : State := { s with detectHalt := b }

/-- What the host may read (R12, R284). DESIGN CHOICE: `MAP` is among it, as R12 and R284 say of every element of R20,
although R20's row of `MAP` names no reader but `MemRead` and `MemWrite` (log 39). -/
inductive HostTarget where
  | pc
  | ir
  | acc
  | reg (index : Nat)
  | flags
  | mem (address : Nat)
  | map
deriving DecidableEq, Repr

/-- What a host read gives. -/
inductive HostValue where
  | word (v : Word)
  | flags (f : Flags)
  | map (m : DeviceMap)
deriving DecidableEq, Repr

/-- What the host may write, with the value, of the element's width (R12, R284). The five flags are one element of R20;
one flag is written by giving the other four as they are. `MAP` is written by `memmap` and `unmap` only (R59). -/
inductive HostWrite where
  | pc (v : Word)
  | ir (v : Word)
  | acc (v : Word)
  | reg (index : Nat) (v : Word)
  | flags (f : Flags)
  | mem (address : Nat) (v : Word)
deriving DecidableEq, Repr

/-- The outcome of a host read: the value and the state after it (a read of a mapped address calls the device), or why
there is none. -/
inductive HostReading where
  | value (v : HostValue) (s : State)
  | fault (r : Fault)
  | refused (r : Refusal)
deriving DecidableEq, Repr

/-- A host read (R284). Memory is read through the router, and the read enters the history as a read (DESIGN CHOICE: R74
names the accesses of steps only, log 30); an index or address out of range is a bounds error, with the
state unchanged. -/
def hostGet (t : HostTarget) (s : State) : HostReading :=
  match t with
  | .pc => .value (.word s.pc) s
  | .ir => .value (.word s.ir) s
  | .acc => match s.cfg.arch with
    | .acc => .value (.word s.acc) s
    | .reg => .refused .noSuchRegister
  | .reg i => match s.cfg.arch with
    | .acc => .refused .noSuchRegister
    | .reg => if h : i < 8 then .value (.word (s.reg ⟨i, h⟩)) s else .fault (.registerIndex i s)
  | .flags => .value (.flags s.flags) s
  | .map => .value (.map s.devices) s
  | .mem a => match memRead .read a s with
    | .error b => .fault (.bounds b s)
    | .ok (w, u) => .value (.word w) u

/-- A host write (R12, R284). Memory is written through the router, and the write enters the history as a write (DESIGN
CHOICE: R74 names the accesses of steps only, log 30); an index or address out of range is a bounds error,
with the state unchanged. The flags are written like any other element, all five at once (log 37). -/
def hostSet (w : HostWrite) (s : State) : Result :=
  match w with
  | .pc v => .next (s.setPc v)
  | .ir v => .next (s.setIr v)
  | .acc v => match s.cfg.arch with
    | .acc => .next (s.setAcc v)
    | .reg => .refused .noSuchRegister
  | .reg i v => match s.cfg.arch with
    | .acc => .refused .noSuchRegister
    | .reg => if h : i < 8 then .next (s.setReg ⟨i, h⟩ v) else .fault (.registerIndex i s)
  | .flags f => .next (s.setFlags f)
  | .mem a v => match memWrite a v s with
    | .error b => .fault (.bounds b s)
    | .ok u => .next u

end Sys2Proof.Machine
end

