-- ==== Sys2Proof/Safety.lean ====
section
/-! DEFINITION. The terms claims are stated in: frames (what stays as it was), the flags and values of the spec's
arithmetic written over numbers (41_alu.md R130 to R133), what an access does (20_memory.md R53, R54, R74), the
invariant of the machine, and what counts as a safe run. -/

namespace Sys2Proof.Machine

/-! Values and flags over plain numbers. -/

/-- `signed_N(v)` of a number below `2^N` (R14, R130). -/
def signedValue (n v : Nat) : Int := if v < 2 ^ (n - 1) then (v : Int) else (v : Int) - 2 ^ n

/-- Outside `-2^(N-1) .. 2^(N-1) - 1` (R132, R133). -/
def signedOverflow (n : Nat) (z : Int) : Prop := z < -(2 ^ (n - 1) : Int) ∨ (2 ^ (n - 1) : Int) ≤ z

/-- `(a - b) mod 2^N` (R133). -/
def differenceMod (n a b : Nat) : Nat := (a + 2 ^ n - b) % 2 ^ n

/-- The five flags after an operation of width `n` with result `r` and markers `c`, `v` (R31, R136); `pz` is
`POSITIVE_ON_ZERO`. -/
def flagsAre (pz : Bool) (n r : Nat) (c v : Prop) (f : Flags) : Prop :=
  (f.zero = true ↔ r = 0) ∧ (f.negative = true ↔ 2 ^ (n - 1) ≤ r) ∧
    (f.positive = true ↔ r < 2 ^ (n - 1) ∧ (r ≠ 0 ∨ pz = true)) ∧ (f.carry = true ↔ c) ∧ (f.overflow = true ↔ v)

/-- The 16-bit value of an 8-bit constant `k` sign-extended: `k`, or `0xFF00 + k` from 0x80 on (R88). -/
def sextValue (k : Nat) : Nat := if k ≤ 0x7F then k else 0xFF00 + k

/-! Frames. -/

/-- What no execute phase changes: the parameters, `ir`, the mapping table, the host's input and the outputs of the
step around it (R2, R24, R34). -/
def sameBase (s t : State) : Prop :=
  t.cfg = s.cfg ∧ t.ir = s.ir ∧ t.devices = s.devices ∧ t.detectHalt = s.detectHalt ∧ t.report = s.report ∧
    t.faulted = s.faulted

/-- No access: all of memory as before, no device word drawn, no event. -/
def sameMemory (s t : State) : Prop := t.mem = s.mem ∧ t.draws = s.draws ∧ t.history = s.history

/-- Every register but `rd` as before, and the accumulator too. -/
def sameRegsBut (rd : RegIdx) (s t : State) : Prop := t.acc = s.acc ∧ ∀ j, j ≠ rd → t.reg j = s.reg j

/-- Every register and the accumulator as before. -/
def sameRegs (s t : State) : Prop := t.acc = s.acc ∧ ∀ j, t.reg j = s.reg j

/-- `pc` is one more, modulo `2^16` (R114). -/
def pcAdvanced (s t : State) : Prop := t.pc.toNat = (s.pc.toNat + 1) % 2 ^ 16

/-! What an ALU instruction leaves, over numbers. -/

/-- The 16-bit value of an 8-bit result in the accumulator (R160). -/
def writebackValue (w : Writeback) (r : Nat) : Nat :=
  match w with
  | .zext => r
  | .sext => sextValue r

/-- An ACC ALU instruction's result `r` with markers `c`, `v`: the accumulator, the flags, `pc`, and nothing else but
what its memory access changes (R32, R160). -/
def accAluLeaves (s : State) (r : Nat) (c v : Prop) (t : State) : Prop :=
  t.acc.toNat = writebackValue s.cfg.accWriteback r ∧ flagsAre s.cfg.positiveOnZero 8 r c v t.flags ∧
    pcAdvanced s t ∧ sameBase s t ∧ t.x = s.x

/-- A REG ALU instruction's result `r` in `x[rd]` with markers `c`, `v` (R32, R180, R210). -/
def regAluLeaves (rd : RegIdx) (s : State) (r : Nat) (c v : Prop) (t : State) : Prop :=
  (t.reg rd).toNat = r ∧ flagsAre s.cfg.positiveOnZero 16 r c v t.flags ∧
    pcAdvanced s t ∧ sameBase s t ∧ sameRegsBut rd s t

/-- A step's move of data leaves the flags, `pc` one more, and the rest of the base (R32). -/
def moveLeaves (s t : State) : Prop := t.flags = s.flags ∧ pcAdvanced s t ∧ sameBase s t

/-- A jump leaves everything but `pc` (R32, R115). -/
def onlyPcChanged (s t : State) : Prop :=
  t.flags = s.flags ∧ sameBase s t ∧ sameMemory s t ∧ sameRegs s t

/-! Accesses. -/

/-- A read of address `a` gives `w` and leaves memory, the draws and the history as in `t` (R53, R60, R74). -/
def readGives (kind : AccessKind) (s : State) (a : Nat) (w : Word) (t : State) : Prop :=
  t.mem = s.mem ∧
    (s.devices.route a = none →
      w = s.mem.word a ∧ t.draws = s.draws ∧ t.history = ⟨kind, a, w, .backing⟩ :: s.history) ∧
    (∀ id h, s.devices.route a = some (id, h) →
      w = Config.deviceWord s.draws ∧ t.draws = s.draws + 1 ∧
        t.history = ⟨kind, a, w, .device id h.onRead⟩ :: s.history)

/-- A write of `v` to address `a` leaves memory, the draws and the history as in `t` (R54, R61, R74). -/
def writeGives (s : State) (a : Nat) (v : Word) (t : State) : Prop :=
  t.draws = s.draws ∧
    (s.devices.route a = none →
      (∀ b, t.mem.word b = if b = a then v else s.mem.word b) ∧ t.history = ⟨.write, a, v, .backing⟩ :: s.history) ∧
    (∀ id h, s.devices.route a = some (id, h) →
      t.mem = s.mem ∧ t.history = ⟨.write, a, v, .device id h.onWrite⟩ :: s.history)

/-! Properties of instructions. -/

/-- `I.inc`: "whether normal program-counter increment should occur after execution" (R114, the column `inc` of R90 to
R92). -/
def instrInc : Instr → Bool
  | .accJumpu _ | .accJumpz _ | .accJumpnz _ | .accJumpc _ | .regJumpu _ | .regJumpz _ | .regJumpnz _ | .regJumpc _
  | .regCall _ | .regRet => false
  | .accMove _ | .accAdd _ | .accSub _ | .accAnd _ | .accLoad _ | .accStore _ | .accAddm _ | .accSubm _
  | .regMoveI _ _ | .regAddI _ _ | .regSubI _ _ | .regAndI _ _ | .regOrI _ _ | .regLoad _ | .regStore _
  | .regAddm _ | .regSubm _ | .regXop1 | .regMove _ _ | .regLoadInd _ _ | .regStoreInd _ _ | .regRol _ | .regRor _
  | .regAdd _ _ | .regSub _ _ | .regAnd _ _ | .regOr _ _ | .regXor _ _ | .regAsl _ | .regXop2 | .regXop3 | .regXop4
  | .regXop5 => true

/-- The target a jump carries, as a number: its 8-bit or 12-bit field (R83, R86, R88). -/
def jumpTarget : Instr → Option Nat
  | .accJumpu a | .accJumpz a | .accJumpnz a | .accJumpc a => some a.toNat
  | .regJumpu a | .regJumpz a | .regJumpnz a | .regJumpc a => some a.toNat
  | .accMove _ | .accAdd _ | .accSub _ | .accAnd _ | .accLoad _ | .accStore _ | .accAddm _ | .accSubm _
  | .regMoveI _ _ | .regAddI _ _ | .regSubI _ _ | .regAndI _ _ | .regOrI _ _ | .regLoad _ | .regStore _
  | .regAddm _ | .regSubm _ | .regCall _ | .regXop1 | .regMove _ _ | .regLoadInd _ _ | .regStoreInd _ _ | .regRol _
  | .regRor _ | .regAdd _ _ | .regSub _ _ | .regAnd _ _ | .regOr _ _ | .regXor _ _ | .regAsl _ | .regXop2 | .regXop3
  | .regXop4 | .regXop5 | .regRet => none

/-- Whether a jump is taken: JUMPU always, the others by a flag (R169 to R172, R189 to R192). -/
def jumpTaken (f : Flags) : Instr → Bool
  | .accJumpu _ | .regJumpu _ => true
  | .accJumpz _ | .regJumpz _ => f.zero
  | .accJumpnz _ | .regJumpnz _ => !f.zero
  | .accJumpc _ | .regJumpc _ => f.carry
  | .accMove _ | .accAdd _ | .accSub _ | .accAnd _ | .accLoad _ | .accStore _ | .accAddm _ | .accSubm _
  | .regMoveI _ _ | .regAddI _ _ | .regSubI _ _ | .regAndI _ _ | .regOrI _ _ | .regLoad _ | .regStore _
  | .regAddm _ | .regSubm _ | .regCall _ | .regXop1 | .regMove _ _ | .regLoadInd _ _ | .regStoreInd _ _ | .regRol _
  | .regRor _ | .regAdd _ _ | .regSub _ _ | .regAnd _ _ | .regOr _ _ | .regXor _ _ | .regAsl _ | .regXop2 | .regXop3
  | .regXop4 | .regXop5 | .regRet => false

/-- The instructions that call an ALU operation, and so write all five flags (R32). -/
def usesAlu : Instr → Bool
  | .accAdd _ | .accSub _ | .accAnd _ | .accAddm _ | .accSubm _
  | .regAddI _ _ | .regSubI _ _ | .regAndI _ _ | .regOrI _ _ | .regAddm _ | .regSubm _
  | .regRol _ | .regRor _ | .regAdd _ _ | .regSub _ _ | .regAnd _ _ | .regOr _ _ | .regXor _ _ | .regAsl _ => true
  | .accMove _ | .accLoad _ | .accStore _ | .accJumpu _ | .accJumpz _ | .accJumpnz _ | .accJumpc _
  | .regMoveI _ _ | .regLoad _ | .regStore _ | .regJumpu _ | .regJumpz _ | .regJumpnz _ | .regJumpc _ | .regCall _
  | .regXop1 | .regMove _ _ | .regLoadInd _ _ | .regStoreInd _ _ | .regXop2 | .regXop3 | .regXop4 | .regXop5
  | .regRet => false

/-- The instructions that make one data access: `LOAD`, `ADDM`, `SUBM` a read, `STORE` a write (R58). -/
def dataAccess : Instr → Option AccessKind
  | .accLoad _ | .accAddm _ | .accSubm _ | .regLoad _ | .regAddm _ | .regSubm _ | .regLoadInd _ _ => some .read
  | .accStore _ | .regStore _ | .regStoreInd _ _ => some .write
  | .accMove _ | .accAdd _ | .accSub _ | .accAnd _ | .accJumpu _ | .accJumpz _ | .accJumpnz _ | .accJumpc _
  | .regMoveI _ _ | .regAddI _ _ | .regSubI _ _ | .regAndI _ _ | .regOrI _ _ | .regJumpu _ | .regJumpz _
  | .regJumpnz _ | .regJumpc _ | .regCall _ | .regXop1 | .regMove _ _ | .regRol _ | .regRor _ | .regAdd _ _
  | .regSub _ _ | .regAnd _ _ | .regOr _ _ | .regXor _ _ | .regAsl _ | .regXop2 | .regXop3 | .regXop4 | .regXop5
  | .regRet => none

/-- The state a fault hands back to the host (R240, R248). -/
def faultLeft : Fault → State
  | .bounds _ s => s
  | .unknownOpcode _ _ s => s
  | .unimplemented _ s => s
  | .registerIndex _ s => s

/-- The same fault, with the same kind and the same recorded address, opcodes or mnemonic, handing back another state. -/
def faultWithLeft (t : State) : Fault → Fault
  | .bounds a _ => .bounds a t
  | .unknownOpcode op sop _ => .unknownOpcode op sop t
  | .unimplemented op _ => .unimplemented op t
  | .registerIndex i _ => .registerIndex i t

/-! The invariant. -/

/-- The backing array is canonical and no larger than MEMSIZE words (R33). -/
def memoryOk (s : State) : Prop := s.mem.wf = true ∧ s.mem.below (2 * memSize s.cfg.arch) = true

/-- The mapping table is sorted, maps in-bounds addresses only (R62), at most one device each (R34), and every mapped
device has its hooks (R59). -/
def devicesOk (s : State) : Prop :=
  tableRising s.devices.addrs = true ∧ tableRising s.devices.hooks = true ∧
    (∀ a id, tableGet s.devices.addrs a = some id →
      a < memSize s.cfg.arch ∧ (tableGet s.devices.hooks id).isSome = true)

/-- `pc` is at most MEMSIZE: a program reaches the first address past memory by incrementing, and no further (R23). -/
def pcOk (s : State) : Prop := s.pc.toNat ≤ memSize s.cfg.arch

/-- The invariant every step keeps. -/
def stateOk (s : State) : Prop := memoryOk s ∧ devicesOk s ∧ pcOk s

/-! Runs. -/

/-- The state of `s` right after the fetch of a word from the backing array (R112). -/
def afterFetch (s : State) (w : Word) : State :=
  { s with ir := w, history := ⟨.fetch, s.pc.toNat, w, .backing⟩ :: s.history }

/-- The state of `s` right after the fetch of a word from a device (R72, R112). -/
def afterDeviceFetch (s : State) (id : DeviceId) (h : HookPair) : State :=
  { s with
    ir := Config.deviceWord s.draws
    draws := s.draws + 1
    history := ⟨.fetch, s.pc.toNat, Config.deviceWord s.draws, .device id h.onRead⟩ :: s.history }

/-- The step from `s`, whose fetch read the word `w` and left the state `u`, raises `UnknownOpcodeFault` if `w` has no row
in `OPMAP`: by its opcode in ACC, where JUMPC needs `ACC_HAS_JUMPC`, and by its opcode or its pair of opcodes in REG (R93,
R113, R242). -/
def unknownOpcodeRaised (s : State) (w : Word) (u : State) : Prop :=
  let op := BitVec.ofNat 4 (w.toNat / 4096)
  let sop := BitVec.ofNat 4 w.toNat
  let left := { u with report := .fault, faulted := true }
  (s.cfg.arch = .acc → rowOf s.cfg.opmap.acc op = none →
    step s = .fault (.unknownOpcode op none left)) ∧
  (s.cfg.arch = .acc → rowOf s.cfg.opmap.acc op = some .jumpc → s.cfg.accHasJumpc = false →
    step s = .fault (.unknownOpcode op none left)) ∧
  (s.cfg.arch = .reg → op ≠ 0xF → rowOf s.cfg.opmap.primary op = none →
    step s = .fault (.unknownOpcode op none left)) ∧
  (s.cfg.arch = .reg → op = 0xF → rowOf s.cfg.opmap.secondary sop = none →
    step s = .fault (.unknownOpcode op (some sop) left))

/-- `k` steps complete without a fault and lead from `s` to `t`: a safe run (R121, R249). -/
def runsTo : Nat → State → State → Prop
  | 0, s, t => t = s
  | k + 1, s, t => ∃ u, step s = .next u ∧ runsTo k u t

/-- The run has ended at `s`: the next step reports the halt-loop (R121). -/
def ended (s : State) : Prop := ∃ t, step s = .next t ∧ t.report = .halted

end Sys2Proof.Machine
end

