-- ==== Sys2Proof/Certificates/Slice0/Obligations.lean ====
section
/-! DEFINITION. The statements for the provers, one definition each. The terms they use stand in Safety.lean. "The spec's
choice" names a point the spec decided itself, with the log entry that says so. -/

open Sys2Proof Sys2Proof.Machine

/-! Encoding. -/

/-- The words of 95_test_vectors.md T170 to T180, each under its variant's default parameters. Every opcode but ACC 0x1,
ACC 0x8 and REG 0xF is the spec's choice (log 3). -/
def Obligations.SampleWordsDecode : Prop :=
  decode (Config.default .acc) 0x1005 = .ok (.accAdd 0x05) ∧
  decode (Config.default .acc) 0x8005 = .ok (.accJumpu 0x05) ∧
  decode (Config.default .acc) 0x4AFE = .ok (.accLoad 0xFE) ∧
  decode (Config.default .reg) 0x0C2A = .ok (.regMoveI 3 0x2A) ∧
  decode (Config.default .reg) 0x04FF = .ok (.regMoveI 1 0xFF) ∧
  decode (Config.default .reg) 0xD4FF = .ok (.regOrI 1 0xFF) ∧
  decode (Config.default .reg) 0x8ABC = .ok (.regJumpu 0xABC) ∧
  decode (Config.default .reg) 0xF905 = .ok (.regAdd 2 1) ∧
  decode (Config.default .reg) 0xFE01 = .ok (.regLoadInd 3 2) ∧
  decode (Config.default .reg) 0xF0F5 = .ok (.regAdd 0 0) ∧
  decode (Config.default .reg) 0x7005 = .ok (.regSubm 0x005)

/-- Decoding the canonical word of any instruction with operands in range gives the instruction back (R97), under the
default `OPMAP`; ACC `JUMPC` needs `ACC_HAS_JUMPC` (log 3, 4). -/
def Obligations.DecodeOfEncode : Prop :=
  ∀ (i : Instr) (hasJumpc : Bool), i.wellFormed = true →
    (hasJumpc = true ∨ ∀ a, i ≠ .accJumpc a) →
    decode { Config.default i.arch with accHasJumpc := hasJumpc } (encode i) = .ok i

/-- Under the default map no REG word is an unknown opcode (R92), and what it decodes to is a REG instruction whose
register operands are 0 to 3. -/
def Obligations.EveryRegWordDecodes : Prop :=
  ∀ w : Word, ∃ i, decode (Config.default .reg) w = .ok i ∧ i.arch = .reg ∧ i.wellFormed = true

/-- Under the default map the unknown ACC words are those with opcode 0xB to 0xF, or 0xC to 0xF with `ACC_HAS_JUMPC`, and
the rejection names the opcode (R93, R242; log 3, 4). -/
def Obligations.AccUnknownOpcodeWords : Prop :=
  ∀ w : Word,
    (decode (Config.default .acc) w = .error ⟨BitVec.ofNat 4 (w.toNat / 4096), none⟩ ↔ 0xB ≤ w.toNat / 4096) ∧
    (decode { Config.default .acc with accHasJumpc := true } w = .error ⟨BitVec.ofNat 4 (w.toNat / 4096), none⟩ ↔
      0xC ≤ w.toNat / 4096)

/-- Every ACC word, whatever its bits 11:8, decodes by its opcode `w / 4096` with the operand `w mod 256` (R82, R83, R90,
R95; the opcodes and the ignoring of bits 11:8 are the spec's choice, log 3, 11). -/
def Obligations.AccWordsDecodeByRow : Prop :=
  ∀ (w : Word) (hasJumpc : Bool) (k : BitVec 8), k.toNat = w.toNat % 256 →
    let d := decode { Config.default .acc with accHasJumpc := hasJumpc } w
    let op := w.toNat / 4096
    (op = 0x0 → d = .ok (.accMove k)) ∧ (op = 0x1 → d = .ok (.accAdd k)) ∧ (op = 0x2 → d = .ok (.accSub k)) ∧
    (op = 0x3 → d = .ok (.accAnd k)) ∧ (op = 0x4 → d = .ok (.accLoad k)) ∧ (op = 0x5 → d = .ok (.accStore k)) ∧
    (op = 0x6 → d = .ok (.accAddm k)) ∧ (op = 0x7 → d = .ok (.accSubm k)) ∧ (op = 0x8 → d = .ok (.accJumpu k)) ∧
    (op = 0x9 → d = .ok (.accJumpz k)) ∧ (op = 0xA → d = .ok (.accJumpnz k)) ∧
    (op = 0xB → hasJumpc = true → d = .ok (.accJumpc k))

/-- Every REG word outside the secondary space decodes by its opcode `w / 4096`, with `rd` from bits 11:10, the constant
from bits 7:0, or the address from bits 11:0 (R84, R86, R87, R91, R95; log 3, 11). -/
def Obligations.RegPrimaryWordsDecodeByRow : Prop :=
  ∀ (w : Word) (rd : RegIdx) (k : BitVec 8) (a : BitVec 12),
    rd.val = w.toNat / 1024 % 4 → k.toNat = w.toNat % 256 → a.toNat = w.toNat % 4096 →
    let d := decode (Config.default .reg) w
    let op := w.toNat / 4096
    (op = 0x0 → d = .ok (.regMoveI rd k)) ∧ (op = 0x1 → d = .ok (.regAddI rd k)) ∧
    (op = 0x2 → d = .ok (.regSubI rd k)) ∧ (op = 0x3 → d = .ok (.regAndI rd k)) ∧
    (op = 0x4 → d = .ok (.regLoad a)) ∧ (op = 0x5 → d = .ok (.regStore a)) ∧ (op = 0x6 → d = .ok (.regAddm a)) ∧
    (op = 0x7 → d = .ok (.regSubm a)) ∧ (op = 0x8 → d = .ok (.regJumpu a)) ∧ (op = 0x9 → d = .ok (.regJumpz a)) ∧
    (op = 0xA → d = .ok (.regJumpnz a)) ∧ (op = 0xB → d = .ok (.regJumpc a)) ∧ (op = 0xC → d = .ok (.regCall a)) ∧
    (op = 0xD → d = .ok (.regOrI rd k)) ∧ (op = 0xE → d = .ok .regXop1)

/-- Every REG word of the secondary space decodes by its low four bits, with `rd` from bits 11:10 and `rs` from bits 9:8
(R84, R85, R92, R95; log 3, 10, 11). -/
def Obligations.RegSecondaryWordsDecodeByRow : Prop :=
  ∀ (w : Word) (rd rs : RegIdx),
    w.toNat / 4096 = 0xF → rd.val = w.toNat / 1024 % 4 → rs.val = w.toNat / 256 % 4 →
    let d := decode (Config.default .reg) w
    let sop := w.toNat % 16
    (sop = 0x0 → d = .ok (.regMove rd rs)) ∧ (sop = 0x1 → d = .ok (.regLoadInd rd rs)) ∧
    (sop = 0x2 → d = .ok (.regStoreInd rd rs)) ∧ (sop = 0x3 → d = .ok (.regRol rd)) ∧
    (sop = 0x4 → d = .ok (.regRor rd)) ∧ (sop = 0x5 → d = .ok (.regAdd rd rs)) ∧
    (sop = 0x6 → d = .ok (.regSub rd rs)) ∧ (sop = 0x7 → d = .ok (.regAnd rd rs)) ∧
    (sop = 0x8 → d = .ok (.regOr rd rs)) ∧ (sop = 0x9 → d = .ok (.regXor rd rs)) ∧
    (sop = 0xA → d = .ok (.regAsl rd)) ∧ (sop = 0xB → d = .ok .regXop2) ∧ (sop = 0xC → d = .ok .regXop3) ∧
    (sop = 0xD → d = .ok .regXop4) ∧ (sop = 0xE → d = .ok .regXop5) ∧ (sop = 0xF → d = .ok .regRet)

/-- Whatever the parameters, `OPMAP` among them, a decoded instruction belongs to the machine's variant and names only
registers 0 to 3 (R2, R28, R85, R87). -/
def Obligations.DecodedInstructionFitsVariant : Prop :=
  ∀ (cfg : Config) (w : Word) (i : Instr), decode cfg w = .ok i → i.arch = cfg.arch ∧ i.wellFormed = true

/-! The ALU. -/

/-- Addition at any width (R132): the sum modulo `2^N`, carry when it does not fit, overflow when two operands of one sign
give a result of the other. -/
def Obligations.AddLaw : Prop :=
  ∀ (n : Nat) (a b : BitVec n), 0 < n →
    (aluAdd a b).r.toNat = (a.toNat + b.toNat) % 2 ^ n ∧
    ((aluAdd a b).carry = true ↔ 2 ^ n ≤ a.toNat + b.toNat) ∧
    ((aluAdd a b).overflow = true ↔ a.msb = b.msb ∧ (aluAdd a b).r.msb ≠ a.msb)

/-- Subtraction at any width (R133): the difference modulo `2^N`, never a carry, overflow when the operands' signs differ
and the result's differs from the minuend's. -/
def Obligations.SubtractLaw : Prop :=
  ∀ (n : Nat) (a b : BitVec n), 0 < n →
    (aluSub a b).r.toNat = differenceMod n a.toNat b.toNat ∧
    (aluSub a b).carry = false ∧
    ((aluSub a b).overflow = true ↔ a.msb ≠ b.msb ∧ (aluSub a b).r.msb ≠ a.msb)

/-- The overflow of an addition or subtraction at any width is that the exact signed result lies outside
`-2^(N-1) .. 2^(N-1) - 1`: the last sentences of R132 and R133, which the spec marks as its own derivation. -/
def Obligations.OverflowIsSignedRange : Prop :=
  ∀ (n : Nat) (a b : BitVec n), 0 < n →
    ((aluAdd a b).overflow = true ↔ signedOverflow n (signedValue n a.toNat + signedValue n b.toNat)) ∧
    ((aluSub a b).overflow = true ↔ signedOverflow n (signedValue n a.toNat - signedValue n b.toNat))

/-- The rotates move every bit one place and wrap the evicted one, the shift moves every bit up and clears bit 0, and
none sets a marker (R142, R143, R144; that a rotate is by one place the spec derives, log 33). -/
def Obligations.RotateAndShiftBits : Prop :=
  ∀ a : BitVec 16,
    ((aluRol a).r.getLsbD 0 = a.getLsbD 15 ∧ ∀ i, i < 15 → (aluRol a).r.getLsbD (i + 1) = a.getLsbD i) ∧
    ((aluRor a).r.getLsbD 15 = a.getLsbD 0 ∧ ∀ i, i < 15 → (aluRor a).r.getLsbD i = a.getLsbD (i + 1)) ∧
    ((aluAsl a).r.getLsbD 0 = false ∧ ∀ i, i < 15 → (aluAsl a).r.getLsbD (i + 1) = a.getLsbD i) ∧
    (aluRol a).carry = false ∧ (aluRol a).overflow = false ∧ (aluRor a).carry = false ∧
    (aluRor a).overflow = false ∧ (aluAsl a).carry = false ∧ (aluAsl a).overflow = false

/-- With the default `POSITIVE_ON_ZERO` exactly one of zero, negative and positive is true after an ALU operation; with
the other setting exactly one of negative and positive is; carry and overflow are the result's markers (R31, R136; the
default is the spec's choice, log 6). -/
def Obligations.FlagsPartitionResults : Prop :=
  ∀ (n : Nat) (o : AluOut n),
    (((flagsOf false o).zero = true ∧ (flagsOf false o).negative = false ∧ (flagsOf false o).positive = false) ∨
     ((flagsOf false o).zero = false ∧ (flagsOf false o).negative = true ∧ (flagsOf false o).positive = false) ∨
     ((flagsOf false o).zero = false ∧ (flagsOf false o).negative = false ∧ (flagsOf false o).positive = true)) ∧
    (flagsOf true o).positive = !(flagsOf true o).negative ∧
    ∀ pz, (flagsOf pz o).carry = o.carry ∧ (flagsOf pz o).overflow = o.overflow

/-! The accumulator variant: each instruction's result and its frame. -/

/-- `MOVE #k` (R161): the constant, zero-extended (the spec's choice, log 7), in `acc`; nothing else but `pc`. -/
def Obligations.AccMoveResult : Prop :=
  ∀ (k : BitVec 8) (s : State), ∃ t, exec (.accMove k) s = .next t ∧
    t.acc.toNat = k.toNat ∧ t.x = s.x ∧ moveLeaves s t ∧ sameMemory s t

/-- `ADD #k`, `SUB #k`, `AND #k` (R162, R163, R164) on the accumulator's low byte: the 8-bit result as the write-back
parameter puts it into `acc` (log 7), the five flags, and nothing else but `pc`. -/
def Obligations.AccImmediateAluResults : Prop :=
  ∀ (k : BitVec 8) (s : State),
    let a := s.acc.toNat % 256
    (∃ t, exec (.accAdd k) s = .next t ∧ sameMemory s t ∧
      accAluLeaves s ((a + k.toNat) % 256) (256 ≤ a + k.toNat)
        (signedOverflow 8 (signedValue 8 a + signedValue 8 k.toNat)) t) ∧
    (∃ t, exec (.accSub k) s = .next t ∧ sameMemory s t ∧
      accAluLeaves s (differenceMod 8 a k.toNat) False
        (signedOverflow 8 (signedValue 8 a - signedValue 8 k.toNat)) t) ∧
    (∃ t, exec (.accAnd k) s = .next t ∧ sameMemory s t ∧ accAluLeaves s (a &&& k.toNat) False False t)

/-- `LOAD a` (R165): one read of address `a`, its word in `acc` (only its low byte without `ACC_LOAD_FULL`, log 8);
flags, registers and memory unchanged. -/
def Obligations.AccLoadResult : Prop :=
  ∀ (a : BitVec 8) (s : State), ∃ w t, exec (.accLoad a) s = .next t ∧ readGives .read s a.toNat w t ∧
    t.acc.toNat = (if s.cfg.accLoadFull = true then w.toNat else w.toNat % 256) ∧ t.x = s.x ∧ moveLeaves s t

/-- `STORE a` (R166): one write of all 16 bits of `acc` to address `a`, every other word of memory unchanged;
accumulator, registers and flags unchanged (log 8). -/
def Obligations.AccStoreResult : Prop :=
  ∀ (a : BitVec 8) (s : State), ∃ t, exec (.accStore a) s = .next t ∧ writeGives s a.toNat s.acc t ∧
    sameRegs s t ∧ moveLeaves s t

/-- `ADDM a`, `SUBM a` (R167, R168): one read of address `a`, then the 8-bit operation on the low bytes of `acc` and of
the word. -/
def Obligations.AccMemoryAluResults : Prop :=
  ∀ (a : BitVec 8) (s : State),
    let x := s.acc.toNat % 256
    (∃ w t, exec (.accAddm a) s = .next t ∧ readGives .read s a.toNat w t ∧
      accAluLeaves s ((x + w.toNat % 256) % 256) (256 ≤ x + w.toNat % 256)
        (signedOverflow 8 (signedValue 8 x + signedValue 8 (w.toNat % 256))) t) ∧
    (∃ w t, exec (.accSubm a) s = .next t ∧ readGives .read s a.toNat w t ∧
      accAluLeaves s (differenceMod 8 x (w.toNat % 256)) False
        (signedOverflow 8 (signedValue 8 x - signedValue 8 (w.toNat % 256))) t)

/-- The ACC jumps (R169 to R172): `pc` is the target, or one more where the condition fails; nothing else changes. That a
taken conditional jump leaves the target exactly is the spec's choice (R115, log 13). -/
def Obligations.AccJumpResults : Prop :=
  ∀ (a : BitVec 8) (s : State),
    let next := (s.pc.toNat + 1) % 2 ^ 16
    (∃ t, exec (.accJumpu a) s = .next t ∧ t.pc.toNat = a.toNat ∧ onlyPcChanged s t) ∧
    (∃ t, exec (.accJumpz a) s = .next t ∧ t.pc.toNat = (if s.flags.zero = true then a.toNat else next) ∧
      onlyPcChanged s t) ∧
    (∃ t, exec (.accJumpnz a) s = .next t ∧ t.pc.toNat = (if s.flags.zero = true then next else a.toNat) ∧
      onlyPcChanged s t) ∧
    (∃ t, exec (.accJumpc a) s = .next t ∧ t.pc.toNat = (if s.flags.carry = true then a.toNat else next) ∧
      onlyPcChanged s t)

/-! The register variant, primary space. -/

/-- `MOVE Rd, #k` (R181): the constant, sign-extended, in `x[rd]`; nothing else but `pc`. -/
def Obligations.RegMoveImmediateResult : Prop :=
  ∀ (rd : RegIdx) (k : BitVec 8) (s : State), ∃ t, exec (.regMoveI rd k) s = .next t ∧
    (t.reg rd).toNat = sextValue k.toNat ∧ sameRegsBut rd s t ∧ moveLeaves s t ∧ sameMemory s t

/-- `ADD Rd, #k`, `SUB Rd, #k` (R182, R183): the 16-bit operation with the sign-extended constant. -/
def Obligations.RegSignedImmediateResults : Prop :=
  ∀ (rd : RegIdx) (k : BitVec 8) (s : State),
    let a := (s.reg rd).toNat
    let b := sextValue k.toNat
    (∃ t, exec (.regAddI rd k) s = .next t ∧ sameMemory s t ∧
      regAluLeaves rd s ((a + b) % 2 ^ 16) (2 ^ 16 ≤ a + b)
        (signedOverflow 16 (signedValue 16 a + signedValue 16 b)) t) ∧
    (∃ t, exec (.regSubI rd k) s = .next t ∧ sameMemory s t ∧
      regAluLeaves rd s (differenceMod 16 a b) False (signedOverflow 16 (signedValue 16 a - signedValue 16 b)) t)

/-- `AND Rd, #k`, `OR Rd, #k` (R184, R194): the constant zero-extended, not sign-extended; after the AND the high byte is
zero, after the OR it is as before. -/
def Obligations.RegUnsignedImmediateResults : Prop :=
  ∀ (rd : RegIdx) (k : BitVec 8) (s : State),
    let a := (s.reg rd).toNat
    (∃ t, exec (.regAndI rd k) s = .next t ∧ sameMemory s t ∧ (t.reg rd).toNat < 256 ∧
      regAluLeaves rd s (a &&& k.toNat) False False t) ∧
    (∃ t, exec (.regOrI rd k) s = .next t ∧ sameMemory s t ∧ (t.reg rd).toNat / 256 = a / 256 ∧
      regAluLeaves rd s (a ||| k.toNat) False False t)

/-- `LOAD RA, a` (R185) on a REG machine: one read of address `a`, its word in `x[0]` (the spec's choice of register,
log 9); flags and memory unchanged. -/
def Obligations.RegLoadAbsoluteResult : Prop :=
  ∀ (a : BitVec 12) (s : State), s.cfg.arch = .reg → ∃ w t, exec (.regLoad a) s = .next t ∧
    readGives .read s a.toNat w t ∧ t.reg 0 = w ∧ sameRegsBut 0 s t ∧ moveLeaves s t

/-- `STORE RA, a` (R186) on a REG machine: one write of `x[0]` to address `a` (log 9), every other word of memory
unchanged; registers and flags unchanged. -/
def Obligations.RegStoreAbsoluteResult : Prop :=
  ∀ (a : BitVec 12) (s : State), s.cfg.arch = .reg → ∃ t, exec (.regStore a) s = .next t ∧
    writeGives s a.toNat (s.reg 0) t ∧ sameRegs s t ∧ moveLeaves s t

/-- `ADDM RA, a`, `SUBM RA, a` (R187, R188) on a REG machine: one read of address `a`, then the 16-bit operation on
`x[0]` (log 9). -/
def Obligations.RegMemoryAluResults : Prop :=
  ∀ (a : BitVec 12) (s : State), s.cfg.arch = .reg →
    let x := (s.reg 0).toNat
    (∃ w t, exec (.regAddm a) s = .next t ∧ readGives .read s a.toNat w t ∧
      regAluLeaves 0 s ((x + w.toNat) % 2 ^ 16) (2 ^ 16 ≤ x + w.toNat)
        (signedOverflow 16 (signedValue 16 x + signedValue 16 w.toNat)) t) ∧
    (∃ w t, exec (.regSubm a) s = .next t ∧ readGives .read s a.toNat w t ∧
      regAluLeaves 0 s (differenceMod 16 x w.toNat) False
        (signedOverflow 16 (signedValue 16 x - signedValue 16 w.toNat)) t)

/-- The REG jumps (R189 to R192): `pc` is the target, or one more where the condition fails; nothing else changes (R115,
log 13). -/
def Obligations.RegJumpResults : Prop :=
  ∀ (a : BitVec 12) (s : State),
    let next := (s.pc.toNat + 1) % 2 ^ 16
    (∃ t, exec (.regJumpu a) s = .next t ∧ t.pc.toNat = a.toNat ∧ onlyPcChanged s t) ∧
    (∃ t, exec (.regJumpz a) s = .next t ∧ t.pc.toNat = (if s.flags.zero = true then a.toNat else next) ∧
      onlyPcChanged s t) ∧
    (∃ t, exec (.regJumpnz a) s = .next t ∧ t.pc.toNat = (if s.flags.zero = true then next else a.toNat) ∧
      onlyPcChanged s t) ∧
    (∃ t, exec (.regJumpc a) s = .next t ∧ t.pc.toNat = (if s.flags.carry = true then a.toNat else next) ∧
      onlyPcChanged s t)

/-- CALL, XOP1 to XOP5 and RET raise `UnimplementedFault` with their name, whatever the state, and hand back the state as
it was, with the fault mark (R94, R193, R195, R222 to R226, R243; the mark is the model's, log 16). -/
def Obligations.UnimplementedInstructionsFault : Prop :=
  ∀ (a : BitVec 12) (s : State),
    let left := { s with report := .fault, faulted := true }
    exec (.regCall a) s = .fault (.unimplemented .call left) ∧
    exec .regXop1 s = .fault (.unimplemented .xop1 left) ∧
    exec .regXop2 s = .fault (.unimplemented .xop2 left) ∧
    exec .regXop3 s = .fault (.unimplemented .xop3 left) ∧
    exec .regXop4 s = .fault (.unimplemented .xop4 left) ∧
    exec .regXop5 s = .fault (.unimplemented .xop5 left) ∧
    exec .regRet s = .fault (.unimplemented .ret left)

/-- The seven reserved encodings (R94): fetched from memory on a REG machine with the default parameters, such a word
decodes, whatever its other bits, and the step ends in `UnimplementedFault` with only `ir` changed (the history and the
marks are the model's, log 16, 30). -/
def Obligations.UnimplementedWordsFault : Prop :=
  ∀ (s : State) (w : Word), s.cfg = Config.default .reg → s.pc.toNat < 4096 →
    s.devices.route s.pc.toNat = none → s.mem.word s.pc.toNat = w →
    let left := { afterFetch s w with report := .fault, faulted := true }
    let op := w.toNat / 4096
    let sop := w.toNat % 16
    (op = 0xC → step s = .fault (.unimplemented .call left)) ∧
    (op = 0xE → step s = .fault (.unimplemented .xop1 left)) ∧
    (op = 0xF → sop = 0xB → step s = .fault (.unimplemented .xop2 left)) ∧
    (op = 0xF → sop = 0xC → step s = .fault (.unimplemented .xop3 left)) ∧
    (op = 0xF → sop = 0xD → step s = .fault (.unimplemented .xop4 left)) ∧
    (op = 0xF → sop = 0xE → step s = .fault (.unimplemented .xop5 left)) ∧
    (op = 0xF → sop = 0xF → step s = .fault (.unimplemented .ret left))

/-! The register variant, secondary space. -/

/-- `MOVE Rd, Rs` (R211): the old value of `x[rs]` in `x[rd]`; nothing else but `pc`. -/
def Obligations.RegMoveResult : Prop :=
  ∀ (rd rs : RegIdx) (s : State), ∃ t, exec (.regMove rd rs) s = .next t ∧
    t.reg rd = s.reg rs ∧ sameRegsBut rd s t ∧ moveLeaves s t ∧ sameMemory s t

/-- `ADD Rd, Rs`, `SUB Rd, Rs` (R216, R217) on the old values of both registers, which may be one register; `x[rd]` is
the minuend (the spec's choice, log 26). -/
def Obligations.RegAddSubResults : Prop :=
  ∀ (rd rs : RegIdx) (s : State),
    let a := (s.reg rd).toNat
    let b := (s.reg rs).toNat
    (∃ t, exec (.regAdd rd rs) s = .next t ∧ sameMemory s t ∧
      regAluLeaves rd s ((a + b) % 2 ^ 16) (2 ^ 16 ≤ a + b)
        (signedOverflow 16 (signedValue 16 a + signedValue 16 b)) t) ∧
    (∃ t, exec (.regSub rd rs) s = .next t ∧ sameMemory s t ∧
      regAluLeaves rd s (differenceMod 16 a b) False (signedOverflow 16 (signedValue 16 a - signedValue 16 b)) t)

/-- `AND Rd, Rs`, `OR Rd, Rs`, `XOR Rd, Rs` (R218, R219, R220) on the old values of both registers. -/
def Obligations.RegLogicResults : Prop :=
  ∀ (rd rs : RegIdx) (s : State),
    let a := (s.reg rd).toNat
    let b := (s.reg rs).toNat
    (∃ t, exec (.regAnd rd rs) s = .next t ∧ sameMemory s t ∧ regAluLeaves rd s (a &&& b) False False t) ∧
    (∃ t, exec (.regOr rd rs) s = .next t ∧ sameMemory s t ∧ regAluLeaves rd s (a ||| b) False False t) ∧
    (∃ t, exec (.regXor rd rs) s = .next t ∧ sameMemory s t ∧ regAluLeaves rd s (a ^^^ b) False False t)

/-- `ROL Rd`, `ROR Rd`, `ASL Rd` (R214, R215, R221) by one place on `x[rd]` (log 10, 33): twice the value with the top
bit wrapped to bit 0, half the value with bit 0 wrapped to the top, twice the value with the top bit lost. -/
def Obligations.RegRotateShiftResults : Prop :=
  ∀ (rd : RegIdx) (s : State),
    let a := (s.reg rd).toNat
    (∃ t, exec (.regRol rd) s = .next t ∧ sameMemory s t ∧
      regAluLeaves rd s (2 * a % 2 ^ 16 + a / 2 ^ 15) False False t) ∧
    (∃ t, exec (.regRor rd) s = .next t ∧ sameMemory s t ∧
      regAluLeaves rd s (a / 2 + a % 2 * 2 ^ 15) False False t) ∧
    (∃ t, exec (.regAsl rd) s = .next t ∧ sameMemory s t ∧ regAluLeaves rd s (2 * a % 2 ^ 16) False False t)

/-- `LOAD Rd, (Rs)` (R212) with an address in bounds: one read at the old value of `x[rs]`, its word in `x[rd]`, also
where `rd` is `rs`; flags and memory unchanged. -/
def Obligations.RegLoadIndirectResult : Prop :=
  ∀ (rd rs : RegIdx) (s : State), (s.reg rs).toNat < memSize s.cfg.arch →
    ∃ w t, exec (.regLoadInd rd rs) s = .next t ∧ readGives .read s (s.reg rs).toNat w t ∧ t.reg rd = w ∧
      sameRegsBut rd s t ∧ moveLeaves s t

/-- `STORE Rd, (Rs)` (R213) with an address in bounds: one write of `x[rd]` at the address `x[rs]`, every other word of
memory unchanged; registers and flags unchanged. -/
def Obligations.RegStoreIndirectResult : Prop :=
  ∀ (rd rs : RegIdx) (s : State), (s.reg rs).toNat < memSize s.cfg.arch →
    ∃ t, exec (.regStoreInd rd rs) s = .next t ∧ writeGives s (s.reg rs).toNat (s.reg rd) t ∧ sameRegs s t ∧
      moveLeaves s t

/-- The register-indirect LOAD and STORE with an address not below MEMSIZE raise `BoundsFault` with the whole 16-bit
register value, not masked (the spec's choice, log 21), and hand back the state as it was, but for the fault mark and the
reported outcome (R212, R213, R241, R248, R249; the marks are the model's, log 16). -/
def Obligations.RegIndirectOutOfBoundsFaults : Prop :=
  ∀ (rd rs : RegIdx) (s : State), memSize s.cfg.arch ≤ (s.reg rs).toNat →
    let left := { s with report := .fault, faulted := true }
    exec (.regLoadInd rd rs) s = .fault (.bounds (s.reg rs).toNat left) ∧
    exec (.regStoreInd rd rs) s = .fault (.bounds (s.reg rs).toNat left)

/-! The memory controller, the mapping table, construction and reset. -/

/-- `MemRead(a, 1)` (R53): out of bounds it fails with the address; in bounds it answers the device's word if the address
is mapped and the backing word if not, and changes neither the backing array nor any register, flag or mapping. That the
device's word is a free value is the spec's choice (log 19), the history is the model's record (log 30). -/
def Obligations.MemReadRule : Prop :=
  ∀ (kind : AccessKind) (a : Nat) (s : State),
    (memSize s.cfg.arch ≤ a → memRead kind a s = .error a) ∧
    (a < memSize s.cfg.arch → ∃ w t, memRead kind a s = .ok (w, t) ∧ readGives kind s a w t ∧
      t.pc = s.pc ∧ t.flags = s.flags ∧ sameRegs s t ∧ sameBase s t)

/-- `MemWrite(a, 1, v)` (R54): out of bounds it fails with the address; in bounds it calls the device's hook and leaves
the backing array if the address is mapped, and writes the backing word and no other if not. After `memmap(id, {A}, h)` a
write of `A` goes to that hook and does not alter the backing word; after `unmap(id)` it writes the backing array. The
call of a hook is its event in the history, which is the model's record (log 30), with the raw address (log 18); that the
bounds check comes first is the spec's choice (log 17). -/
def Obligations.MemWriteRule : Prop :=
  (∀ (a : Nat) (v : Word) (s : State),
    (memSize s.cfg.arch ≤ a → memWrite a v s = .error a) ∧
    (a < memSize s.cfg.arch → ∃ t, memWrite a v s = .ok t ∧ writeGives s a v t ∧
      t.pc = s.pc ∧ t.flags = s.flags ∧ sameRegs s t ∧ sameBase s t)) ∧
  (∀ (id : DeviceId) (a : Nat) (h : HookPair) (v : Word) (s : State), a < memSize s.cfg.arch →
    ∃ t u p q, State.memmap id [a] h s = .next t ∧
      memWrite a v t = .ok u ∧ u.mem = t.mem ∧
      u.history = ⟨.write, a, v, .device id h.onWrite⟩ :: t.history ∧
      State.unmap id u = .next p ∧
      memWrite a v p = .ok q ∧ q.mem.word a = v ∧ q.history = ⟨.write, a, v, .backing⟩ :: p.history)

/-- A store to an unmapped address is seen by the very next fetch, where that is the next instruction's address (R72):
for the store instruction of ACC and both of REG. -/
def Obligations.StoredWordIsFetchedNext : Prop :=
  (∀ (a : BitVec 8) (s t : State), exec (.accStore a) s = .next t → s.devices.route a.toNat = none →
    t.pc.toNat = a.toNat → ∃ u, fetch t = .ok u ∧ u.ir = s.acc) ∧
  (∀ (a : BitVec 12) (s t : State), exec (.regStore a) s = .next t → s.devices.route a.toNat = none →
    t.pc.toNat = a.toNat → ∃ u, fetch t = .ok u ∧ u.ir = s.reg 0) ∧
  (∀ (rd rs : RegIdx) (s t : State), exec (.regStoreInd rd rs) s = .next t →
    s.devices.route (s.reg rs).toNat = none → t.pc = s.reg rs → ∃ u, fetch t = .ok u ∧ u.ir = s.reg rd)

/-- `memmap` of in-bounds addresses (R62): exactly those addresses now map to the device, whatever they mapped to before,
the device has the given hooks, nothing else changes, and a well-formed table stays so. The bound on the addresses is the
spec's choice (log 17), and that a device that lost all its addresses keeps its hooks is the model's (log 38). -/
def Obligations.MemmapMapsExactly : Prop :=
  ∀ (id : DeviceId) (addrs : List Nat) (h : HookPair) (s : State), (∀ a ∈ addrs, a < memSize s.cfg.arch) →
    ∃ t, State.memmap id addrs h s = .next t ∧
      (∀ a, tableGet t.devices.addrs a = if a ∈ addrs then some id else tableGet s.devices.addrs a) ∧
      (∀ d, tableGet t.devices.hooks d = if d = id then some h else tableGet s.devices.hooks d) ∧
      t = { s with devices := t.devices } ∧ (devicesOk s → devicesOk t)

/-- `unmap` of a registered device (R63): no address maps to it afterwards and it has no hooks; every other address and
device is as before, nothing else changes, and the table stays well-formed. -/
def Obligations.UnmapRemovesDevice : Prop :=
  ∀ (id : DeviceId) (s : State), devicesOk s → (tableGet s.devices.hooks id).isSome = true →
    ∃ t, State.unmap id s = .next t ∧
      (∀ a, tableGet s.devices.addrs a = some id → tableGet t.devices.addrs a = none) ∧
      (∀ a, tableGet t.devices.addrs a ≠ some id) ∧
      (∀ a, tableGet s.devices.addrs a ≠ some id → tableGet t.devices.addrs a = tableGet s.devices.addrs a) ∧
      (∀ d, tableGet t.devices.hooks d = if d = id then none else tableGet s.devices.hooks d) ∧
      t = { s with devices := t.devices } ∧ devicesOk t

/-- Construction loads the image (R272): word `i` of the image at address `i` up to MEMSIZE, zero beyond the image, the
tail of a longer image lost. -/
def Obligations.ConstructLoadsImage : Prop :=
  ∀ (cfg : Config) (image : List Word) (a : Nat),
    (State.construct cfg image).mem.word a = if a < memSize cfg.arch then image.getD a 0 else 0

/-- The machine right after reset (R37, R270): `pc`, `ir`, registers zero, flags false, memory reading zero, no device; and
after construction with any parameters and image `pc` is `RESET_PC` and everything but memory is the same. But for memory
these values are the spec's choice (log 5), and that `State.reset` is a REG machine is the model's (log 2). -/
def Obligations.ResetValues : Prop :=
  State.reset.cfg = Config.default .reg ∧ State.reset.pc = 0 ∧ State.reset.ir = 0 ∧ State.reset.acc = 0 ∧
  (∀ i, State.reset.reg i = 0) ∧ State.reset.flags = ⟨false, false, false, false, false⟩ ∧
  (∀ a, State.reset.mem.word a = 0) ∧ (∀ a, State.reset.devices.route a = none) ∧
  State.reset.detectHalt = true ∧ State.reset.faulted = false ∧
  ∀ cfg image, State.construct cfg image =
    { State.reset with cfg := cfg, pc := cfg.resetPc, mem := (State.construct cfg image).mem }

/-! The step. -/

/-- No instruction, fault or host operation changes the variant, nor any other construction parameter (R2, R21; that the
parameters are a field of State is the model's choice, log 1). -/
def Obligations.ParametersNeverChange : Prop :=
  (∀ cfg image, (State.construct cfg image).cfg = cfg) ∧
  ∀ s : State,
    (∀ t, step s = .next t → t.cfg = s.cfg) ∧
    (∀ f, step s = .fault f → (faultLeft f).cfg = s.cfg) ∧
    (∀ i t, exec i s = .next t → t.cfg = s.cfg) ∧
    (∀ i f, exec i s = .fault f → (faultLeft f).cfg = s.cfg) ∧
    (∀ id addrs h t, State.memmap id addrs h s = .next t → t.cfg = s.cfg) ∧
    (∀ id t, State.unmap id s = .next t → t.cfg = s.cfg) ∧
    (∀ w t, hostSet w s = .next t → t.cfg = s.cfg) ∧
    (∀ w f, hostSet w s = .fault f → (faultLeft f).cfg = s.cfg) ∧
    (∀ x v t, hostGet x s = .value v t → t.cfg = s.cfg) ∧
    (∀ x f, hostGet x s = .fault f → (faultLeft f).cfg = s.cfg) ∧
    (∀ b, (s.withDetectHalt b).cfg = s.cfg)

/-- Only `memmap` and `unmap` change the mapping table (R34, R59): no step that completes or faults, no instruction and no
other host operation does. Nor does a step change the host's input `detectHalt` (log 14); a step that completes leaves the
fault mark as it was, and one that faults sets it (log 16). -/
def Obligations.StepKeepsMapping : Prop :=
  ∀ s : State,
    (∀ t, step s = .next t → t.devices = s.devices ∧ t.detectHalt = s.detectHalt ∧ t.faulted = s.faulted) ∧
    (∀ f, step s = .fault f → (faultLeft f).devices = s.devices ∧ (faultLeft f).detectHalt = s.detectHalt ∧
      (faultLeft f).faulted = true) ∧
    (∀ i t, exec i s = .next t → t.devices = s.devices) ∧
    (∀ w t, hostSet w s = .next t → t.devices = s.devices) ∧
    (∀ w f, hostSet w s = .fault f → (faultLeft f).devices = s.devices) ∧
    (∀ x v t, hostGet x s = .value v t → t.devices = s.devices) ∧
    (∀ x f, hostGet x s = .fault f → (faultLeft f).devices = s.devices) ∧
    (∀ b, (s.withDetectHalt b).devices = s.devices)

/-- What the host reads and writes between steps (R12, R284), on a machine that has the element: a write sets that element
and nothing else and a read gives it and changes nothing, but that memory is read and written through the router (R53,
R54); an index or address out of range is a bounds error with the state unchanged. That the host may write the flags, all
five at once, and read the mapping table is the model's reading (log 37, 39), and so is that its memory accesses enter the
history (log 30); the outcomes are the model's (log 27, 34). -/
def Obligations.HostAccesses : Prop :=
  ∀ (s : State) (v : Word) (f : Flags),
    (hostSet (.pc v) s = .next { s with pc := v } ∧ hostGet .pc s = .value (.word s.pc) s) ∧
    (hostSet (.ir v) s = .next { s with ir := v } ∧ hostGet .ir s = .value (.word s.ir) s) ∧
    (hostSet (.flags f) s = .next { s with flags := f } ∧ hostGet .flags s = .value (.flags s.flags) s) ∧
    hostGet .map s = .value (.map s.devices) s ∧
    (s.cfg.arch = .acc →
      hostSet (.acc v) s = .next { s with acc := v } ∧ hostGet .acc s = .value (.word s.acc) s) ∧
    (∀ i : RegIdx, s.cfg.arch = .reg →
      (∃ t, hostSet (.reg i.val v) s = .next t ∧ t.reg i = v ∧ sameRegsBut i s t ∧ t = { s with x := t.x }) ∧
      hostGet (.reg i.val) s = .value (.word (s.reg i)) s) ∧
    (∀ k, 8 ≤ k → s.cfg.arch = .reg →
      hostSet (.reg k v) s = .fault (.registerIndex k s) ∧ hostGet (.reg k) s = .fault (.registerIndex k s)) ∧
    (∀ a, a < memSize s.cfg.arch →
      (∃ t, hostSet (.mem a v) s = .next t ∧ writeGives s a v t ∧ t.pc = s.pc ∧ t.flags = s.flags ∧ sameRegs s t ∧
        sameBase s t) ∧
      ∃ w t, hostGet (.mem a) s = .value (.word w) t ∧ readGives .read s a w t ∧ t.pc = s.pc ∧ t.flags = s.flags ∧
        sameRegs s t ∧ sameBase s t) ∧
    (∀ a, memSize s.cfg.arch ≤ a →
      hostSet (.mem a v) s = .fault (.bounds a s) ∧ hostGet (.mem a) s = .fault (.bounds a s))

/-- When the word at `pc`, from the backing array or from a device, decodes to an instruction and the step is no
halt-loop, the step is that instruction's execute phase on the state after the fetch, and reports `ok` (R110, R111). -/
def Obligations.StepRunsDecodedInstruction : Prop :=
  ∀ (s : State) (i : Instr), s.pc.toNat < memSize s.cfg.arch →
    ¬(s.detectHalt = true ∧ jumpuTarget i = some s.pc) →
    (s.devices.route s.pc.toNat = none → decode s.cfg (s.mem.word s.pc.toNat) = .ok i →
      step s = match exec i (afterFetch s (s.mem.word s.pc.toNat)) with
        | .next t => .next { t with report := .ok }
        | .fault f => .fault f
        | .refused r => .refused r) ∧
    (∀ id h, s.devices.route s.pc.toNat = some (id, h) → decode s.cfg (Config.deviceWord s.draws) = .ok i →
      step s = match exec i (afterDeviceFetch s id h) with
        | .next t => .next { t with report := .ok }
        | .fault f => .fault f
        | .refused r => .refused r)

/-- A fetch at `pc >= MEMSIZE` raises `BoundsFault(pc)` and leaves everything, `ir` included, as it was (R23, R112, R241;
the marks are the model's, log 16). -/
def Obligations.FetchOutOfBoundsFaults : Prop :=
  ∀ s : State, memSize s.cfg.arch ≤ s.pc.toNat →
    step s = .fault (.bounds s.pc.toNat { s with report := .fault, faulted := true })

/-- A fetched word whose opcode, or opcode pair in the secondary space of REG, has no row in `OPMAP` raises
`UnknownOpcodeFault` with that opcode, after `ir` was written and with nothing else changed (R93, R113, R242), whether the
word came from the backing array or, with the device's read called, from a device (R248; the marks are the model's, log 16,
and so is the history, log 30). -/
def Obligations.UnknownOpcodeFaults : Prop :=
  ∀ s : State, s.pc.toNat < memSize s.cfg.arch →
    (s.devices.route s.pc.toNat = none →
      unknownOpcodeRaised s (s.mem.word s.pc.toNat) (afterFetch s (s.mem.word s.pc.toNat))) ∧
    (∀ id h, s.devices.route s.pc.toNat = some (id, h) →
      unknownOpcodeRaised s (Config.deviceWord s.draws) (afterDeviceFetch s id h))

/-- A fetched JUMPU to its own address (R116, R117): with detection the step reports `halted` without executing it,
without detection it executes it and reports `ok`; both leave the same state, with `ir` written and `pc` unchanged, but
for the report. -/
def Obligations.SelfJumpBothSettings : Prop :=
  ∀ (s : State) (i : Instr), s.pc.toNat < memSize s.cfg.arch → s.devices.route s.pc.toNat = none →
    decode s.cfg (s.mem.word s.pc.toNat) = .ok i → jumpuTarget i = some s.pc →
    stepWith true s = .next { afterFetch s (s.mem.word s.pc.toNat) with report := .halted } ∧
    stepWith false s = .next { afterFetch s (s.mem.word s.pc.toNat) with report := .ok }

/-- A step reports `halted` exactly when detection is on and the word it fetched decodes to a JUMPU whose target is its
own address: no conditional jump and no CALL halts (R116, R121; the scope is the spec's choice, log 14). -/
def Obligations.HaltedExactlyOnSelfJump : Prop :=
  ∀ s t : State, step s = .next t →
    (t.report = .halted ↔
      s.detectHalt = true ∧ ((∃ a, decode t.cfg t.ir = .ok (.accJumpu a) ∧ a.toNat = s.pc.toNat) ∨
        ∃ a, decode t.cfg t.ir = .ok (.regJumpu a) ∧ a.toNat = s.pc.toNat))

/-- Halt-loop idempotence (R118): a core that reported `halted` at an unmapped address reports it again when stepped
again, with `pc`, `ir`, registers, flags and memory unchanged. -/
def Obligations.HaltedIsRepeated : Prop :=
  ∀ s t : State, s.devices.route s.pc.toNat = none → step s = .next t → t.report = .halted →
    ∃ u, step t = .next u ∧ u.report = .halted ∧ u.pc = s.pc ∧ u.ir = t.ir ∧ u.flags = s.flags ∧ sameRegs s u ∧
      u.mem = s.mem

/-! Invariants and rules of the whole machine. -/

/-- The invariant holds at reset; and after construction with any image the memory is canonical and within MEMSIZE, and
the whole invariant holds unless `RESET_PC` lies past MEMSIZE. -/
def Obligations.InvariantAtReset : Prop :=
  stateOk State.reset ∧
  ∀ cfg image, memoryOk (State.construct cfg image) ∧
    (cfg.resetPc.toNat ≤ memSize cfg.arch → stateOk (State.construct cfg image))

/-- Every step from a state that meets the invariant (canonical memory of MEMSIZE words, well-formed mapping table, `pc`
at most MEMSIZE) gives a state that meets it, and so does a faulting step's state, whatever the parameters (R23, R33,
R34). -/
def Obligations.StepKeepsInvariant : Prop :=
  ∀ s : State, stateOk s →
    (∀ t, step s = .next t → stateOk t) ∧ (∀ f, step s = .fault f → stateOk (faultLeft f))

/-- No step reads or writes `x[4..7]` (R28): two machines that differ there only take the same steps, to states that
differ there only, with those registers as they were, or raise the same fault with the same information; and a
decoded instruction names only registers 0 to 3. -/
def Obligations.HighRegistersUnreachable : Prop :=
  (∀ (cfg : Config) (w : Word) (i : Instr), decode cfg w = .ok i → i.wellFormed = true) ∧
  ∀ (s : State) (y : Vector Word 8), (∀ j : RegIdx, j.val < 4 → y[j.val] = s.reg j) →
    (∀ t, step s = .next t → ∃ z : Vector Word 8, step { s with x := y } = .next { t with x := z } ∧
      ∀ j : RegIdx, (j.val < 4 → z[j.val] = t.reg j) ∧ (4 ≤ j.val → z[j.val] = y[j.val] ∧ t.reg j = s.reg j)) ∧
    (∀ f, step s = .fault f → (faultLeft f).x = s.x ∧
      step { s with x := y } = .fault (faultWithLeft { faultLeft f with x := y } f))

/-- The variants keep apart: on a REG machine no step changes the accumulator, on an ACC machine none changes a register
(R20, R25; that State holds both is the model's choice, log 28). -/
def Obligations.VariantsKeepApart : Prop :=
  ∀ s t : State, step s = .next t → (s.cfg.arch = .reg → t.acc = s.acc) ∧ (s.cfg.arch = .acc → t.x = s.x)

/-- An instruction whose `inc` is yes leaves `pc` one more; one whose `inc` is no carries a target, and leaves `pc` at that
target if the jump is taken and one more if not (R114, R115; that a taken conditional jump leaves the target exactly is the
spec's choice, log 13, and so are the conditions, log 31). -/
def Obligations.PcUpdateByIncFlag : Prop :=
  ∀ (i : Instr) (s t : State), exec i s = .next t →
    (instrInc i = true → pcAdvanced s t) ∧
    (instrInc i = false → ∃ a, jumpTarget i = some a ∧
      (jumpTaken s.flags i = true → t.pc.toNat = a) ∧ (jumpTaken s.flags i = false → pcAdvanced s t))

/-- The flags are written by exactly the instructions that call the ALU, all five at once: any other leaves them, and
what an ALU instruction leaves in them does not depend on what they were (R32, R136; which instructions call the ALU is
the spec's choice, log 22). -/
def Obligations.FlagsWrittenOnlyByAlu : Prop :=
  ∀ (i : Instr) (s t : State), exec i s = .next t →
    (usesAlu i = false → t.flags = s.flags) ∧
    (usesAlu i = true → ∀ f : Flags, exec i { s with flags := f } = .next t)

/-- A step that completes made one fetch, of the word now in `ir` at the old `pc`, and then at most one data access: one
for `LOAD`, `ADDM`, `SUBM` (a read) and `STORE` (a write), none for the others (R58, R74). -/
def Obligations.StepAccesses : Prop :=
  ∀ s t : State, step s = .next t → ∃ e i, e.kind = .fetch ∧ e.addr = s.pc.toNat ∧ e.word = t.ir ∧
    decode t.cfg t.ir = .ok i ∧
    ((dataAccess i = none ∧ t.history = e :: s.history) ∨
      ∃ d, dataAccess i = some d.kind ∧ t.history = d :: e :: s.history)

/-- Of the spec's state a faulting step changes `ir` at most: `pc`, registers, flags, memory and mapping are as before,
and `ir` is the fetched word unless the fetch itself failed (R119, R248; the order of effects is the spec's choice, log 16). -/
def Obligations.FaultChangesOnlyIr : Prop :=
  ∀ (s : State) (f : Fault), step s = .fault f →
    (faultLeft f).pc = s.pc ∧ (faultLeft f).flags = s.flags ∧ sameRegs s (faultLeft f) ∧
    (faultLeft f).mem = s.mem ∧ (faultLeft f).devices = s.devices ∧ (faultLeft f).report = .fault ∧
    (faultLeft f).faulted = true ∧
    ((memSize s.cfg.arch ≤ s.pc.toNat ∧ (faultLeft f).ir = s.ir ∧ (faultLeft f).history = s.history ∧
        (faultLeft f).draws = s.draws) ∨
      (s.pc.toNat < memSize s.cfg.arch ∧
        ∃ e, e.kind = .fetch ∧ e.addr = s.pc.toNat ∧ e.word = (faultLeft f).ir ∧
          (faultLeft f).history = e :: s.history))

/-- Every step from every state completes or ends in one of the three faults of the core, never in a refusal and never in
the host's register-index error (R111, R240, R246). -/
def Obligations.StepNeverRefuses : Prop :=
  ∀ s : State, (∃ t, step s = .next t) ∨
    ∃ f, step s = .fault f ∧ ((∃ a, f = .bounds a (faultLeft f)) ∨
      (∃ op sop, f = .unknownOpcode op sop (faultLeft f)) ∨ ∃ op, f = .unimplemented op (faultLeft f))
end

