-- ==== Sys2Proof/Laws/State.lean ====
section
/-! SUPPORT. One lemma per field per update of State, each true by rfl, so that no later proof unfolds a record update. -/

namespace Sys2Proof.Machine

variable (s : State)

@[simp] theorem State.setPc_cfg (a : Word) : (s.setPc a).cfg = s.cfg := rfl
@[simp] theorem State.setPc_pc (a : Word) : (s.setPc a).pc = a := rfl
@[simp] theorem State.setPc_ir (a : Word) : (s.setPc a).ir = s.ir := rfl
@[simp] theorem State.setPc_acc (a : Word) : (s.setPc a).acc = s.acc := rfl
@[simp] theorem State.setPc_x (a : Word) : (s.setPc a).x = s.x := rfl
@[simp] theorem State.setPc_flags (a : Word) : (s.setPc a).flags = s.flags := rfl
@[simp] theorem State.setPc_mem (a : Word) : (s.setPc a).mem = s.mem := rfl
@[simp] theorem State.setPc_devices (a : Word) : (s.setPc a).devices = s.devices := rfl
@[simp] theorem State.setPc_detectHalt (a : Word) : (s.setPc a).detectHalt = s.detectHalt := rfl
@[simp] theorem State.setPc_draws (a : Word) : (s.setPc a).draws = s.draws := rfl
@[simp] theorem State.setPc_history (a : Word) : (s.setPc a).history = s.history := rfl
@[simp] theorem State.setPc_report (a : Word) : (s.setPc a).report = s.report := rfl
@[simp] theorem State.setPc_faulted (a : Word) : (s.setPc a).faulted = s.faulted := rfl

@[simp] theorem State.advance_cfg : (s.advance).cfg = s.cfg := rfl
@[simp] theorem State.advance_pc : (s.advance).pc = s.pc + 1 := rfl
@[simp] theorem State.advance_ir : (s.advance).ir = s.ir := rfl
@[simp] theorem State.advance_acc : (s.advance).acc = s.acc := rfl
@[simp] theorem State.advance_x : (s.advance).x = s.x := rfl
@[simp] theorem State.advance_flags : (s.advance).flags = s.flags := rfl
@[simp] theorem State.advance_mem : (s.advance).mem = s.mem := rfl
@[simp] theorem State.advance_devices : (s.advance).devices = s.devices := rfl
@[simp] theorem State.advance_detectHalt : (s.advance).detectHalt = s.detectHalt := rfl
@[simp] theorem State.advance_draws : (s.advance).draws = s.draws := rfl
@[simp] theorem State.advance_history : (s.advance).history = s.history := rfl
@[simp] theorem State.advance_report : (s.advance).report = s.report := rfl
@[simp] theorem State.advance_faulted : (s.advance).faulted = s.faulted := rfl

@[simp] theorem State.setIr_cfg (w : Word) : (s.setIr w).cfg = s.cfg := rfl
@[simp] theorem State.setIr_pc (w : Word) : (s.setIr w).pc = s.pc := rfl
@[simp] theorem State.setIr_ir (w : Word) : (s.setIr w).ir = w := rfl
@[simp] theorem State.setIr_acc (w : Word) : (s.setIr w).acc = s.acc := rfl
@[simp] theorem State.setIr_x (w : Word) : (s.setIr w).x = s.x := rfl
@[simp] theorem State.setIr_flags (w : Word) : (s.setIr w).flags = s.flags := rfl
@[simp] theorem State.setIr_mem (w : Word) : (s.setIr w).mem = s.mem := rfl
@[simp] theorem State.setIr_devices (w : Word) : (s.setIr w).devices = s.devices := rfl
@[simp] theorem State.setIr_detectHalt (w : Word) : (s.setIr w).detectHalt = s.detectHalt := rfl
@[simp] theorem State.setIr_draws (w : Word) : (s.setIr w).draws = s.draws := rfl
@[simp] theorem State.setIr_history (w : Word) : (s.setIr w).history = s.history := rfl
@[simp] theorem State.setIr_report (w : Word) : (s.setIr w).report = s.report := rfl
@[simp] theorem State.setIr_faulted (w : Word) : (s.setIr w).faulted = s.faulted := rfl

@[simp] theorem State.setAcc_cfg (v : Word) : (s.setAcc v).cfg = s.cfg := rfl
@[simp] theorem State.setAcc_pc (v : Word) : (s.setAcc v).pc = s.pc := rfl
@[simp] theorem State.setAcc_ir (v : Word) : (s.setAcc v).ir = s.ir := rfl
@[simp] theorem State.setAcc_acc (v : Word) : (s.setAcc v).acc = v := rfl
@[simp] theorem State.setAcc_x (v : Word) : (s.setAcc v).x = s.x := rfl
@[simp] theorem State.setAcc_flags (v : Word) : (s.setAcc v).flags = s.flags := rfl
@[simp] theorem State.setAcc_mem (v : Word) : (s.setAcc v).mem = s.mem := rfl
@[simp] theorem State.setAcc_devices (v : Word) : (s.setAcc v).devices = s.devices := rfl
@[simp] theorem State.setAcc_detectHalt (v : Word) : (s.setAcc v).detectHalt = s.detectHalt := rfl
@[simp] theorem State.setAcc_draws (v : Word) : (s.setAcc v).draws = s.draws := rfl
@[simp] theorem State.setAcc_history (v : Word) : (s.setAcc v).history = s.history := rfl
@[simp] theorem State.setAcc_report (v : Word) : (s.setAcc v).report = s.report := rfl
@[simp] theorem State.setAcc_faulted (v : Word) : (s.setAcc v).faulted = s.faulted := rfl

@[simp] theorem State.setReg_cfg (i : RegIdx) (v : Word) : (s.setReg i v).cfg = s.cfg := rfl
@[simp] theorem State.setReg_pc (i : RegIdx) (v : Word) : (s.setReg i v).pc = s.pc := rfl
@[simp] theorem State.setReg_ir (i : RegIdx) (v : Word) : (s.setReg i v).ir = s.ir := rfl
@[simp] theorem State.setReg_acc (i : RegIdx) (v : Word) : (s.setReg i v).acc = s.acc := rfl
@[simp] theorem State.setReg_x (i : RegIdx) (v : Word) : (s.setReg i v).x = s.x.set i.val v i.isLt := rfl
@[simp] theorem State.setReg_flags (i : RegIdx) (v : Word) : (s.setReg i v).flags = s.flags := rfl
@[simp] theorem State.setReg_mem (i : RegIdx) (v : Word) : (s.setReg i v).mem = s.mem := rfl
@[simp] theorem State.setReg_devices (i : RegIdx) (v : Word) : (s.setReg i v).devices = s.devices := rfl
@[simp] theorem State.setReg_detectHalt (i : RegIdx) (v : Word) : (s.setReg i v).detectHalt = s.detectHalt := rfl
@[simp] theorem State.setReg_draws (i : RegIdx) (v : Word) : (s.setReg i v).draws = s.draws := rfl
@[simp] theorem State.setReg_history (i : RegIdx) (v : Word) : (s.setReg i v).history = s.history := rfl
@[simp] theorem State.setReg_report (i : RegIdx) (v : Word) : (s.setReg i v).report = s.report := rfl
@[simp] theorem State.setReg_faulted (i : RegIdx) (v : Word) : (s.setReg i v).faulted = s.faulted := rfl

@[simp] theorem State.setFlags_cfg (f : Flags) : (s.setFlags f).cfg = s.cfg := rfl
@[simp] theorem State.setFlags_pc (f : Flags) : (s.setFlags f).pc = s.pc := rfl
@[simp] theorem State.setFlags_ir (f : Flags) : (s.setFlags f).ir = s.ir := rfl
@[simp] theorem State.setFlags_acc (f : Flags) : (s.setFlags f).acc = s.acc := rfl
@[simp] theorem State.setFlags_x (f : Flags) : (s.setFlags f).x = s.x := rfl
@[simp] theorem State.setFlags_flags (f : Flags) : (s.setFlags f).flags = f := rfl
@[simp] theorem State.setFlags_mem (f : Flags) : (s.setFlags f).mem = s.mem := rfl
@[simp] theorem State.setFlags_devices (f : Flags) : (s.setFlags f).devices = s.devices := rfl
@[simp] theorem State.setFlags_detectHalt (f : Flags) : (s.setFlags f).detectHalt = s.detectHalt := rfl
@[simp] theorem State.setFlags_draws (f : Flags) : (s.setFlags f).draws = s.draws := rfl
@[simp] theorem State.setFlags_history (f : Flags) : (s.setFlags f).history = s.history := rfl
@[simp] theorem State.setFlags_report (f : Flags) : (s.setFlags f).report = s.report := rfl
@[simp] theorem State.setFlags_faulted (f : Flags) : (s.setFlags f).faulted = s.faulted := rfl

@[simp] theorem State.setMemWord_cfg (a : Nat) (v : Word) : (s.setMemWord a v).cfg = s.cfg := rfl
@[simp] theorem State.setMemWord_pc (a : Nat) (v : Word) : (s.setMemWord a v).pc = s.pc := rfl
@[simp] theorem State.setMemWord_ir (a : Nat) (v : Word) : (s.setMemWord a v).ir = s.ir := rfl
@[simp] theorem State.setMemWord_acc (a : Nat) (v : Word) : (s.setMemWord a v).acc = s.acc := rfl
@[simp] theorem State.setMemWord_x (a : Nat) (v : Word) : (s.setMemWord a v).x = s.x := rfl
@[simp] theorem State.setMemWord_flags (a : Nat) (v : Word) : (s.setMemWord a v).flags = s.flags := rfl
@[simp] theorem State.setMemWord_mem (a : Nat) (v : Word) : (s.setMemWord a v).mem = s.mem.setWord a v := rfl
@[simp] theorem State.setMemWord_devices (a : Nat) (v : Word) : (s.setMemWord a v).devices = s.devices := rfl
@[simp] theorem State.setMemWord_detectHalt (a : Nat) (v : Word) : (s.setMemWord a v).detectHalt = s.detectHalt := rfl
@[simp] theorem State.setMemWord_draws (a : Nat) (v : Word) : (s.setMemWord a v).draws = s.draws := rfl
@[simp] theorem State.setMemWord_history (a : Nat) (v : Word) : (s.setMemWord a v).history = s.history := rfl
@[simp] theorem State.setMemWord_report (a : Nat) (v : Word) : (s.setMemWord a v).report = s.report := rfl
@[simp] theorem State.setMemWord_faulted (a : Nat) (v : Word) : (s.setMemWord a v).faulted = s.faulted := rfl

@[simp] theorem State.countDraw_cfg : (s.countDraw).cfg = s.cfg := rfl
@[simp] theorem State.countDraw_pc : (s.countDraw).pc = s.pc := rfl
@[simp] theorem State.countDraw_ir : (s.countDraw).ir = s.ir := rfl
@[simp] theorem State.countDraw_acc : (s.countDraw).acc = s.acc := rfl
@[simp] theorem State.countDraw_x : (s.countDraw).x = s.x := rfl
@[simp] theorem State.countDraw_flags : (s.countDraw).flags = s.flags := rfl
@[simp] theorem State.countDraw_mem : (s.countDraw).mem = s.mem := rfl
@[simp] theorem State.countDraw_devices : (s.countDraw).devices = s.devices := rfl
@[simp] theorem State.countDraw_detectHalt : (s.countDraw).detectHalt = s.detectHalt := rfl
@[simp] theorem State.countDraw_draws : (s.countDraw).draws = s.draws + 1 := rfl
@[simp] theorem State.countDraw_history : (s.countDraw).history = s.history := rfl
@[simp] theorem State.countDraw_report : (s.countDraw).report = s.report := rfl
@[simp] theorem State.countDraw_faulted : (s.countDraw).faulted = s.faulted := rfl

@[simp] theorem State.log_cfg (e : Event) : (s.log e).cfg = s.cfg := rfl
@[simp] theorem State.log_pc (e : Event) : (s.log e).pc = s.pc := rfl
@[simp] theorem State.log_ir (e : Event) : (s.log e).ir = s.ir := rfl
@[simp] theorem State.log_acc (e : Event) : (s.log e).acc = s.acc := rfl
@[simp] theorem State.log_x (e : Event) : (s.log e).x = s.x := rfl
@[simp] theorem State.log_flags (e : Event) : (s.log e).flags = s.flags := rfl
@[simp] theorem State.log_mem (e : Event) : (s.log e).mem = s.mem := rfl
@[simp] theorem State.log_devices (e : Event) : (s.log e).devices = s.devices := rfl
@[simp] theorem State.log_detectHalt (e : Event) : (s.log e).detectHalt = s.detectHalt := rfl
@[simp] theorem State.log_draws (e : Event) : (s.log e).draws = s.draws := rfl
@[simp] theorem State.log_history (e : Event) : (s.log e).history = e :: s.history := rfl
@[simp] theorem State.log_report (e : Event) : (s.log e).report = s.report := rfl
@[simp] theorem State.log_faulted (e : Event) : (s.log e).faulted = s.faulted := rfl

@[simp] theorem State.setReport_cfg (r : Report) : (s.setReport r).cfg = s.cfg := rfl
@[simp] theorem State.setReport_pc (r : Report) : (s.setReport r).pc = s.pc := rfl
@[simp] theorem State.setReport_ir (r : Report) : (s.setReport r).ir = s.ir := rfl
@[simp] theorem State.setReport_acc (r : Report) : (s.setReport r).acc = s.acc := rfl
@[simp] theorem State.setReport_x (r : Report) : (s.setReport r).x = s.x := rfl
@[simp] theorem State.setReport_flags (r : Report) : (s.setReport r).flags = s.flags := rfl
@[simp] theorem State.setReport_mem (r : Report) : (s.setReport r).mem = s.mem := rfl
@[simp] theorem State.setReport_devices (r : Report) : (s.setReport r).devices = s.devices := rfl
@[simp] theorem State.setReport_detectHalt (r : Report) : (s.setReport r).detectHalt = s.detectHalt := rfl
@[simp] theorem State.setReport_draws (r : Report) : (s.setReport r).draws = s.draws := rfl
@[simp] theorem State.setReport_history (r : Report) : (s.setReport r).history = s.history := rfl
@[simp] theorem State.setReport_report (r : Report) : (s.setReport r).report = r := rfl
@[simp] theorem State.setReport_faulted (r : Report) : (s.setReport r).faulted = s.faulted := rfl

@[simp] theorem State.markFaulted_cfg : (s.markFaulted).cfg = s.cfg := rfl
@[simp] theorem State.markFaulted_pc : (s.markFaulted).pc = s.pc := rfl
@[simp] theorem State.markFaulted_ir : (s.markFaulted).ir = s.ir := rfl
@[simp] theorem State.markFaulted_acc : (s.markFaulted).acc = s.acc := rfl
@[simp] theorem State.markFaulted_x : (s.markFaulted).x = s.x := rfl
@[simp] theorem State.markFaulted_flags : (s.markFaulted).flags = s.flags := rfl
@[simp] theorem State.markFaulted_mem : (s.markFaulted).mem = s.mem := rfl
@[simp] theorem State.markFaulted_devices : (s.markFaulted).devices = s.devices := rfl
@[simp] theorem State.markFaulted_detectHalt : (s.markFaulted).detectHalt = s.detectHalt := rfl
@[simp] theorem State.markFaulted_draws : (s.markFaulted).draws = s.draws := rfl
@[simp] theorem State.markFaulted_history : (s.markFaulted).history = s.history := rfl
@[simp] theorem State.markFaulted_report : (s.markFaulted).report = .fault := rfl
@[simp] theorem State.markFaulted_faulted : (s.markFaulted).faulted = true := rfl

@[simp] theorem State.setPc_reg (a : Word) (j : RegIdx) : (s.setPc a).reg j = s.reg j := rfl
@[simp] theorem State.advance_reg (j : RegIdx) : (s.advance).reg j = s.reg j := rfl
@[simp] theorem State.setIr_reg (w : Word) (j : RegIdx) : (s.setIr w).reg j = s.reg j := rfl
@[simp] theorem State.setAcc_reg (v : Word) (j : RegIdx) : (s.setAcc v).reg j = s.reg j := rfl
@[simp] theorem State.setFlags_reg (f : Flags) (j : RegIdx) : (s.setFlags f).reg j = s.reg j := rfl
@[simp] theorem State.setMemWord_reg (a : Nat) (v : Word) (j : RegIdx) : (s.setMemWord a v).reg j = s.reg j := rfl
@[simp] theorem State.countDraw_reg (j : RegIdx) : (s.countDraw).reg j = s.reg j := rfl
@[simp] theorem State.log_reg (e : Event) (j : RegIdx) : (s.log e).reg j = s.reg j := rfl
@[simp] theorem State.setReport_reg (r : Report) (j : RegIdx) : (s.setReport r).reg j = s.reg j := rfl
@[simp] theorem State.markFaulted_reg (j : RegIdx) : (s.markFaulted).reg j = s.reg j := rfl

@[simp] theorem State.setReg_reg_self (i : RegIdx) (v : Word) : (s.setReg i v).reg i = v := by
  simp [State.reg, State.setReg]

theorem State.setReg_reg_ne {i j : RegIdx} (h : j ≠ i) (v : Word) : (s.setReg i v).reg j = s.reg j := by
  have hv : i.val ≠ j.val := fun e => h (Fin.ext e.symm)
  simp [State.reg, State.setReg, Vector.getElem_set_ne, hv]

end Sys2Proof.Machine
end

