-- ==== Sys2Proof/Laws/Ops.lean ====
section
/-! SUPPORT. What each shared operation can do, said once: the memory controller, the execute phases with one data
access, the conditional jump, and the ALU write-backs. Later proofs cite these and do not unfold the operations. -/

namespace Sys2Proof.Machine

variable {s t : State} {a : Nat} {v w : Word}

/-! The memory controller. -/

theorem memRead_outOfBounds (kind : AccessKind) (h : memSize s.cfg.arch ≤ a) : memRead kind a s = .error a := by
  simp [memRead, h]

theorem memRead_backing (kind : AccessKind) (h : a < memSize s.cfg.arch) (hr : s.devices.route a = none) :
    memRead kind a s = .ok (s.mem.word a, s.log ⟨kind, a, s.mem.word a, .backing⟩) := by
  simp [memRead, Nat.not_le.mpr h, hr]

theorem memRead_device (kind : AccessKind) (h : a < memSize s.cfg.arch) {id : DeviceId} {p : HookPair}
    (hr : s.devices.route a = some (id, p)) :
    memRead kind a s =
      .ok (Config.deviceWord s.draws, s.countDraw.log ⟨kind, a, Config.deviceWord s.draws, .device id p.onRead⟩) := by
  simp [memRead, Nat.not_le.mpr h, hr]

/-- A read that fails names its own address, which is out of bounds. -/
theorem memRead_error {kind : AccessKind} {b : Nat} (h : memRead kind a s = .error b) :
    b = a ∧ memSize s.cfg.arch ≤ a := by
  by_cases ha : memSize s.cfg.arch ≤ a
  · rw [memRead_outOfBounds kind ha] at h; cases h; exact ⟨rfl, ha⟩
  · rw [memRead, if_neg ha] at h; split at h <;> cases h

/-- Everything a read that answers can do. -/
theorem memRead_ok {kind : AccessKind} (h : memRead kind a s = .ok (w, t)) :
    a < memSize s.cfg.arch ∧
      ((s.devices.route a = none ∧ w = s.mem.word a ∧ t = s.log ⟨kind, a, w, .backing⟩) ∨
        ∃ id p, s.devices.route a = some (id, p) ∧ w = Config.deviceWord s.draws ∧
          t = s.countDraw.log ⟨kind, a, w, .device id p.onRead⟩) := by
  by_cases ha : memSize s.cfg.arch ≤ a
  · rw [memRead_outOfBounds kind ha] at h; cases h
  · refine ⟨Nat.not_le.mp ha, ?_⟩
    rw [memRead, if_neg ha] at h
    split at h
    next id p hr => cases h; exact .inr ⟨id, p, hr, rfl, rfl⟩
    next hr => cases h; exact .inl ⟨hr, rfl, rfl⟩

/-- A read changes the draws and the history only. -/
theorem memRead_frame {kind : AccessKind} (h : memRead kind a s = .ok (w, t)) :
    t.cfg = s.cfg ∧ t.pc = s.pc ∧ t.ir = s.ir ∧ t.acc = s.acc ∧ t.x = s.x ∧ t.flags = s.flags ∧ t.mem = s.mem ∧
      t.devices = s.devices ∧ t.detectHalt = s.detectHalt ∧ t.report = s.report ∧ t.faulted = s.faulted := by
  obtain ⟨-, ⟨-, -, rfl⟩ | ⟨id, p, -, -, rfl⟩⟩ := memRead_ok h <;> simp

/-- An in-bounds read answers. -/
theorem memRead_answers (kind : AccessKind) (h : a < memSize s.cfg.arch) :
    ∃ w t, memRead kind a s = .ok (w, t) := by
  cases hm : memRead kind a s with
  | error b => exact absurd (memRead_error hm).2 (Nat.not_le.mpr h)
  | ok p => exact ⟨p.1, p.2, rfl⟩

theorem memWrite_outOfBounds (v : Word) (h : memSize s.cfg.arch ≤ a) : memWrite a v s = .error a := by
  simp [memWrite, h]

theorem memWrite_backing (v : Word) (h : a < memSize s.cfg.arch) (hr : s.devices.route a = none) :
    memWrite a v s = .ok ((s.setMemWord a v).log ⟨.write, a, v, .backing⟩) := by
  simp [memWrite, Nat.not_le.mpr h, hr]

theorem memWrite_device (v : Word) (h : a < memSize s.cfg.arch) {id : DeviceId} {p : HookPair}
    (hr : s.devices.route a = some (id, p)) :
    memWrite a v s = .ok (s.log ⟨.write, a, v, .device id p.onWrite⟩) := by
  simp [memWrite, Nat.not_le.mpr h, hr]

/-- A write that fails names its own address, which is out of bounds. -/
theorem memWrite_error {b : Nat} (h : memWrite a v s = .error b) : b = a ∧ memSize s.cfg.arch ≤ a := by
  by_cases ha : memSize s.cfg.arch ≤ a
  · rw [memWrite_outOfBounds v ha] at h; cases h; exact ⟨rfl, ha⟩
  · rw [memWrite, if_neg ha] at h; split at h <;> cases h

/-- Everything a write that answers can do. -/
theorem memWrite_ok (h : memWrite a v s = .ok t) :
    a < memSize s.cfg.arch ∧
      ((s.devices.route a = none ∧ t = (s.setMemWord a v).log ⟨.write, a, v, .backing⟩) ∨
        ∃ id p, s.devices.route a = some (id, p) ∧ t = s.log ⟨.write, a, v, .device id p.onWrite⟩) := by
  by_cases ha : memSize s.cfg.arch ≤ a
  · rw [memWrite_outOfBounds v ha] at h; cases h
  · refine ⟨Nat.not_le.mp ha, ?_⟩
    rw [memWrite, if_neg ha] at h
    split at h
    next id p hr => cases h; exact .inr ⟨id, p, hr, rfl⟩
    next hr => cases h; exact .inl ⟨hr, rfl⟩

/-- A write changes the backing array and the history only. -/
theorem memWrite_frame (h : memWrite a v s = .ok t) :
    t.cfg = s.cfg ∧ t.pc = s.pc ∧ t.ir = s.ir ∧ t.acc = s.acc ∧ t.x = s.x ∧ t.flags = s.flags ∧ t.draws = s.draws ∧
      t.devices = s.devices ∧ t.detectHalt = s.detectHalt ∧ t.report = s.report ∧ t.faulted = s.faulted := by
  obtain ⟨-, ⟨-, rfl⟩ | ⟨id, p, -, rfl⟩⟩ := memWrite_ok h <;> simp

/-- An in-bounds write answers. -/
theorem memWrite_answers (v : Word) (h : a < memSize s.cfg.arch) : ∃ t, memWrite a v s = .ok t := by
  cases hm : memWrite a v s with
  | error b => exact absurd (memWrite_error hm).2 (Nat.not_le.mpr h)
  | ok t => exact ⟨t, rfl⟩

/-! Execute phases with one data access. -/

theorem withRead_of_ok {rest : Word → State → State} (h : memRead .read a s = .ok (w, t)) :
    withRead a s rest = .next (rest w t).advance := by
  simp [withRead, h]

theorem withRead_next {rest : Word → State → State} {u : State} (h : withRead a s rest = .next u) :
    ∃ w t, memRead .read a s = .ok (w, t) ∧ u = (rest w t).advance := by
  cases hm : memRead .read a s with
  | error b => simp [withRead, hm, raise] at h
  | ok p => exact ⟨p.1, p.2, rfl, by simpa [withRead, hm] using h.symm⟩

theorem withRead_fault {rest : Word → State → State} {f : Fault} (h : withRead a s rest = .fault f) :
    memSize s.cfg.arch ≤ a ∧ f = .bounds a s.markFaulted := by
  cases hm : memRead .read a s with
  | error b =>
    obtain ⟨rfl, hb⟩ := memRead_error hm
    exact ⟨hb, by simpa [withRead, hm, raise] using h.symm⟩
  | ok p => simp [withRead, hm] at h

theorem withRead_outOfBounds (rest : Word → State → State) (h : memSize s.cfg.arch ≤ a) :
    withRead a s rest = .fault (.bounds a s.markFaulted) := by
  simp [withRead, memRead_outOfBounds _ h, raise]

theorem withWrite_of_ok (h : memWrite a v s = .ok t) : withWrite a v s = .next t.advance := by
  simp [withWrite, h]

theorem withWrite_next {u : State} (h : withWrite a v s = .next u) :
    ∃ t, memWrite a v s = .ok t ∧ u = t.advance := by
  cases hm : memWrite a v s with
  | error b => simp [withWrite, hm, raise] at h
  | ok t => exact ⟨t, rfl, by simpa [withWrite, hm] using h.symm⟩

theorem withWrite_fault {f : Fault} (h : withWrite a v s = .fault f) :
    memSize s.cfg.arch ≤ a ∧ f = .bounds a s.markFaulted := by
  cases hm : memWrite a v s with
  | error b =>
    obtain ⟨rfl, hb⟩ := memWrite_error hm
    exact ⟨hb, by simpa [withWrite, hm, raise] using h.symm⟩
  | ok t => simp [withWrite, hm] at h

theorem withWrite_outOfBounds (v : Word) (h : memSize s.cfg.arch ≤ a) :
    withWrite a v s = .fault (.bounds a s.markFaulted) := by
  simp [withWrite, memWrite_outOfBounds v h, raise]

theorem jumpIf_next {c : Bool} {u : State} (h : jumpIf c w s = .next u) :
    (c = true ∧ u = s.setPc w) ∨ (c = false ∧ u = s.advance) := by
  cases c
  · exact .inr ⟨rfl, by simpa [jumpIf] using h.symm⟩
  · exact .inl ⟨rfl, by simpa [jumpIf] using h.symm⟩

/-! The ALU write-backs: the flags and one register, nothing else. -/

section WriteBacks

variable (o : AluOut 8) (rd : RegIdx) (q : AluOut 16) (s : State)

@[simp] theorem accAlu_acc : (accAlu o s).acc = writeback s.cfg.accWriteback o.r := rfl
@[simp] theorem accAlu_flags : (accAlu o s).flags = flagsOf s.cfg.positiveOnZero o := rfl
@[simp] theorem accAlu_cfg : (accAlu o s).cfg = s.cfg := rfl
@[simp] theorem accAlu_pc : (accAlu o s).pc = s.pc := rfl
@[simp] theorem accAlu_ir : (accAlu o s).ir = s.ir := rfl
@[simp] theorem accAlu_x : (accAlu o s).x = s.x := rfl
@[simp] theorem accAlu_mem : (accAlu o s).mem = s.mem := rfl
@[simp] theorem accAlu_devices : (accAlu o s).devices = s.devices := rfl
@[simp] theorem accAlu_detectHalt : (accAlu o s).detectHalt = s.detectHalt := rfl
@[simp] theorem accAlu_draws : (accAlu o s).draws = s.draws := rfl
@[simp] theorem accAlu_history : (accAlu o s).history = s.history := rfl
@[simp] theorem accAlu_report : (accAlu o s).report = s.report := rfl
@[simp] theorem accAlu_faulted : (accAlu o s).faulted = s.faulted := rfl

@[simp] theorem regAlu_x : (regAlu rd q s).x = s.x.set rd.val q.r rd.isLt := rfl
@[simp] theorem regAlu_flags : (regAlu rd q s).flags = flagsOf s.cfg.positiveOnZero q := rfl
@[simp] theorem regAlu_cfg : (regAlu rd q s).cfg = s.cfg := rfl
@[simp] theorem regAlu_pc : (regAlu rd q s).pc = s.pc := rfl
@[simp] theorem regAlu_ir : (regAlu rd q s).ir = s.ir := rfl
@[simp] theorem regAlu_acc : (regAlu rd q s).acc = s.acc := rfl
@[simp] theorem regAlu_mem : (regAlu rd q s).mem = s.mem := rfl
@[simp] theorem regAlu_devices : (regAlu rd q s).devices = s.devices := rfl
@[simp] theorem regAlu_detectHalt : (regAlu rd q s).detectHalt = s.detectHalt := rfl
@[simp] theorem regAlu_draws : (regAlu rd q s).draws = s.draws := rfl
@[simp] theorem regAlu_history : (regAlu rd q s).history = s.history := rfl
@[simp] theorem regAlu_report : (regAlu rd q s).report = s.report := rfl
@[simp] theorem regAlu_faulted : (regAlu rd q s).faulted = s.faulted := rfl

@[simp] theorem regAlu_reg_self : (regAlu rd q s).reg rd = q.r := State.setReg_reg_self _ _ _

theorem regAlu_reg_ne {j : RegIdx} (h : j ≠ rd) : (regAlu rd q s).reg j = s.reg j :=
  State.setReg_reg_ne _ h _

end WriteBacks

end Sys2Proof.Machine
end

