-- ==== Sys2Proof/Laws/Host.lean ====
section
/-! SUPPORT. What the host's reads and writes can do, said once (70_reset_and_hazards.md R284). -/

namespace Sys2Proof.Machine

variable {s t : State} {f : Fault}

/-- A host write that succeeds changes no parameter, no mapping, no input and no output. -/
theorem hostSet_frame {w : HostWrite} (h : hostSet w s = .next t) :
    t.cfg = s.cfg ∧ t.devices = s.devices ∧ t.detectHalt = s.detectHalt ∧ t.report = s.report ∧
      t.faulted = s.faulted := by
  cases w with
  | pc v => cases h; simp
  | ir v => cases h; simp
  | flags g => cases h; simp
  | acc v => rw [hostSet] at h; split at h <;> cases h; simp
  | reg i v => rw [hostSet] at h; split at h; cases h; split at h <;> cases h; simp
  | mem a v =>
    rw [hostSet] at h
    split at h <;> cases h
    next u hu =>
      obtain ⟨h1, -, -, -, -, -, -, h8, h9, h10, h11⟩ := memWrite_frame hu
      exact ⟨h1, h8, h9, h10, h11⟩

/-- A host write that is a bounds error leaves the state unchanged. -/
theorem hostSet_fault {w : HostWrite} (h : hostSet w s = .fault f) : faultLeft f = s := by
  cases w with
  | pc v => cases h
  | ir v => cases h
  | flags g => cases h
  | acc v => rw [hostSet] at h; split at h <;> cases h
  | reg i v => rw [hostSet] at h; split at h; cases h; split at h <;> cases h; rfl
  | mem a v => rw [hostSet] at h; split at h <;> cases h; rfl

/-- A host read that succeeds changes the draws and the history at most. -/
theorem hostGet_frame {x : HostTarget} {v : HostValue} (h : hostGet x s = .value v t) :
    t.cfg = s.cfg ∧ t.pc = s.pc ∧ t.ir = s.ir ∧ t.acc = s.acc ∧ t.x = s.x ∧ t.flags = s.flags ∧ t.mem = s.mem ∧
      t.devices = s.devices ∧ t.detectHalt = s.detectHalt ∧ t.report = s.report ∧ t.faulted = s.faulted := by
  cases x with
  | pc => cases h; simp
  | ir => cases h; simp
  | flags => cases h; simp
  | map => cases h; simp
  | acc => rw [hostGet] at h; split at h <;> cases h; simp
  | reg i => rw [hostGet] at h; split at h; cases h; split at h <;> cases h; simp
  | mem a =>
    rw [hostGet] at h
    split at h <;> cases h
    next w hw => exact memRead_frame hw

/-- A host read that is a bounds error leaves the state unchanged. -/
theorem hostGet_fault {x : HostTarget} (h : hostGet x s = .fault f) : faultLeft f = s := by
  cases x with
  | pc => cases h
  | ir => cases h
  | flags => cases h
  | map => cases h
  | acc => rw [hostGet] at h; split at h <;> cases h
  | reg i => rw [hostGet] at h; split at h; cases h; split at h <;> cases h; rfl
  | mem a => rw [hostGet] at h; split at h <;> cases h; rfl

@[simp] theorem faultLeft_faultWithLeft (g : Fault) (u : State) : faultLeft (faultWithLeft u g) = u := by
  cases g <;> rfl

end Sys2Proof.Machine
end

