-- ==== Sys2Proof/Laws/Memory.lean ====
section
/-! SUPPORT. The laws of the sorted tables and of the backing array: a read after a write, every other place unchanged,
and the canonical form kept by every memory operation (20_memory.md R53, R54; 10_state.md R33). -/

namespace Sys2Proof.Machine

variable {β : Type}

/-! Tables. -/

theorem tableGet_erase_self (m : List (Nat × β)) (k : Nat) : tableGet (tableErase m k) k = none := by
  induction m with
  | nil => rfl
  | cons c m ih =>
    by_cases h : c.1 = k
    · simpa [tableErase, h] using ih
    · simpa [tableErase, h, tableGet] using ih

theorem tableGet_erase_ne (m : List (Nat × β)) {j k : Nat} (h : j ≠ k) :
    tableGet (tableErase m k) j = tableGet m j := by
  induction m with
  | nil => rfl
  | cons c m ih =>
    by_cases hc : c.1 = k
    · have : c.1 ≠ j := fun e => h (e.symm.trans hc)
      simpa [tableErase, hc, tableGet, h.symm] using ih
    · by_cases hj : c.1 = j
      · simp [tableErase, tableGet, hj, h]
      · simpa [tableErase, hc, tableGet, hj] using ih

theorem tableGet_insert_ne (m : List (Nat × β)) {j k : Nat} (h : j ≠ k) (v : β) :
    tableGet (tableInsert m k v) j = tableGet m j := by
  induction m with
  | nil => simp [tableInsert, tableGet, h.symm]
  | cons c m ih =>
    by_cases hc : k < c.1
    · simp [tableInsert, hc, tableGet, h.symm]
    · simp [tableInsert, hc, tableGet, ih]

theorem tableGet_insert_self (m : List (Nat × β)) (k : Nat) (v : β) (h : tableGet m k = none) :
    tableGet (tableInsert m k v) k = some v := by
  induction m with
  | nil => simp [tableInsert, tableGet]
  | cons c m ih =>
    by_cases hk : c.1 = k
    · simp [tableGet, hk] at h
    · rw [tableGet, if_neg hk] at h
      by_cases hc : k < c.1
      · simp [tableInsert, hc, tableGet]
      · simp [tableInsert, hc, tableGet, hk, ih h]

theorem tableGet_put (m : List (Nat × β)) (k : Nat) (v : β) (j : Nat) :
    tableGet (tablePut m k v) j = if j = k then some v else tableGet m j := by
  by_cases h : j = k
  · subst h; simp [tablePut, tableGet_insert_self _ _ _ (tableGet_erase_self m j)]
  · simp [tablePut, tableGet_insert_ne _ h, tableGet_erase_ne _ h, h]

/-- Sortedness as a pairwise fact. -/
theorem tableRising_iff (m : List (Nat × β)) : tableRising m = true ↔ m.Pairwise (fun c d => c.1 < d.1) := by
  induction m with
  | nil => simp [tableRising]
  | cons c m ih =>
    cases m with
    | nil => simp [tableRising]
    | cons d m =>
      rw [tableRising, Bool.and_eq_true, ih, List.pairwise_cons (a := c), decide_eq_true_eq]
      constructor
      · rintro ⟨h, hp⟩
        refine ⟨fun e he => ?_, hp⟩
        rcases List.mem_cons.mp he with rfl | he
        · exact h
        · exact h.trans ((List.pairwise_cons.mp hp).1 e he)
      · exact fun ⟨h, hp⟩ => ⟨h d (by simp), hp⟩

theorem tableErase_rising {m : List (Nat × β)} (h : tableRising m = true) (k : Nat) :
    tableRising (tableErase m k) = true := by
  rw [tableRising_iff] at *
  exact h.filter _

theorem mem_tableInsert {m : List (Nat × β)} {k : Nat} {v : β} {c : Nat × β} :
    c ∈ tableInsert m k v ↔ c = (k, v) ∨ c ∈ m := by
  induction m with
  | nil => simp [tableInsert]
  | cons d m ih =>
    by_cases h : k < d.1
    · simp [tableInsert, h]
    · simp only [tableInsert, h, if_false, List.mem_cons, ih]; tauto

theorem tableInsert_rising {m : List (Nat × β)} (h : tableRising m = true) {k : Nat} (hk : ∀ c ∈ m, c.1 ≠ k) (v : β) :
    tableRising (tableInsert m k v) = true := by
  rw [tableRising_iff] at *
  induction m with
  | nil => simp [tableInsert]
  | cons d m ih =>
    obtain ⟨hd, hm⟩ := List.pairwise_cons.mp h
    by_cases hlt : k < d.1
    · simp only [tableInsert, hlt, if_true]
      refine List.pairwise_cons.mpr ⟨fun c hc => ?_, h⟩
      rcases List.mem_cons.mp hc with rfl | hc
      · exact hlt
      · exact hlt.trans (hd c hc)
    · simp only [tableInsert, hlt, if_false]
      refine List.pairwise_cons.mpr ⟨fun c hc => ?_, ih hm fun c hc => hk c (by simp [hc])⟩
      rcases mem_tableInsert.mp hc with rfl | hc
      · have := hk d (by simp); show d.1 < k; omega
      · exact hd c hc

theorem tablePut_rising {m : List (Nat × β)} (h : tableRising m = true) (k : Nat) (v : β) :
    tableRising (tablePut m k v) = true :=
  tableInsert_rising (tableErase_rising h k) (fun c hc => by simpa using (List.mem_filter.mp hc).2) v

theorem mem_tablePut {m : List (Nat × β)} {k : Nat} {v : β} {c : Nat × β} (h : c ∈ tablePut m k v) :
    c = (k, v) ∨ c ∈ m := by
  rcases mem_tableInsert.mp h with h | h
  · exact .inl h
  · exact .inr (List.mem_filter.mp h).1

theorem mem_of_tableGet {m : List (Nat × β)} {k : Nat} {v : β} (h : tableGet m k = some v) : (k, v) ∈ m := by
  induction m with
  | nil => simp [tableGet] at h
  | cons c m ih =>
    by_cases hk : c.1 = k
    · simp only [tableGet, hk, if_true, Option.some.injEq] at h
      subst hk h; simp
    · rw [tableGet, if_neg hk] at h; exact List.mem_cons_of_mem _ (ih h)

/-! Cells and words. -/

theorem Memory.byte_setByte (m : Memory) (k j : Nat) (b : BitVec 8) :
    (m.setByte k b).byte j = if j = k then b else m.byte j := by
  by_cases hb : b = Memory.unlisted
  · by_cases h : j = k
    · subst h; simp [Memory.setByte, Memory.byte, hb, tableGet_erase_self]
    · simp [Memory.setByte, Memory.byte, hb, tableGet_erase_ne _ h, h]
  · by_cases h : j = k <;> simp [Memory.setByte, Memory.byte, hb, tableGet_put, h]

theorem Memory.word_setWord (m : Memory) (a b : Nat) (v : Word) :
    (m.setWord a v).word b = if b = a then v else m.word b := by
  by_cases h : b = a
  · subst h
    have hv : v.extractLsb' 8 8 ++ v.extractLsb' 0 8 = v := by
      apply BitVec.eq_of_getLsbD_eq; intro i hi
      rw [BitVec.getLsbD_append]
      by_cases h8 : i < 8
      · simp [h8]
      · have h16 : i - 8 < 8 := by omega
        have hi' : 8 + (i - 8) = i := by omega
        simp [h8, h16, hi']
    simp [Memory.setWord, Memory.word, Memory.byte_setByte, hv]
  · have h1 : 2 * b + 1 ≠ 2 * a + 1 := by omega
    have h2 : 2 * b + 1 ≠ 2 * a := by omega
    have h3 : 2 * b ≠ 2 * a + 1 := by omega
    have h4 : 2 * b ≠ 2 * a := by omega
    simp [Memory.setWord, Memory.word, Memory.byte_setByte, h, h2, h3, h4]

@[simp] theorem Memory.word_nil (a : Nat) : Memory.word [] a = 0 := by
  show (Memory.unlisted ++ Memory.unlisted : BitVec 16) = 0
  decide

/-! The canonical form. -/

theorem Memory.wf_iff (m : Memory) : m.wf = true ↔ tableRising m = true ∧ ∀ c ∈ m, c.2 ≠ Memory.unlisted := by
  simp [Memory.wf]

theorem Memory.below_iff (m : Memory) (n : Nat) : m.below n = true ↔ ∀ c ∈ m, c.1 < n := by
  simp [Memory.below]

theorem Memory.wf_setByte {m : Memory} (h : m.wf = true) (k : Nat) (b : BitVec 8) : (m.setByte k b).wf = true := by
  rw [Memory.wf_iff] at *
  by_cases hb : b = Memory.unlisted
  · rw [Memory.setByte, if_pos hb]
    exact ⟨tableErase_rising h.1 k, fun c hc => h.2 c (List.mem_filter.mp hc).1⟩
  · rw [Memory.setByte, if_neg hb]
    refine ⟨tablePut_rising h.1 k b, fun c hc => ?_⟩
    rcases mem_tablePut hc with rfl | hc
    · exact hb
    · exact h.2 c hc

theorem Memory.wf_setWord {m : Memory} (h : m.wf = true) (a : Nat) (v : Word) : (m.setWord a v).wf = true :=
  Memory.wf_setByte (Memory.wf_setByte h _ _) _ _

theorem Memory.below_setByte {m : Memory} {n : Nat} (h : m.below n = true) {k : Nat} (hk : k < n) (b : BitVec 8) :
    (m.setByte k b).below n = true := by
  rw [Memory.below_iff] at *
  by_cases hb : b = Memory.unlisted
  · rw [Memory.setByte, if_pos hb]; exact fun c hc => h c (List.mem_filter.mp hc).1
  · rw [Memory.setByte, if_neg hb]
    intro c hc
    rcases mem_tablePut hc with rfl | hc
    · exact hk
    · exact h c hc

theorem Memory.below_setWord {m : Memory} {n : Nat} (h : m.below (2 * n) = true) {a : Nat} (ha : a < n) (v : Word) :
    (m.setWord a v).below (2 * n) = true :=
  Memory.below_setByte (Memory.below_setByte h (by omega) _) (by omega) _

theorem loadFrom_wf {m : Memory} (h : m.wf = true) (a : Nat) (ws : List Word) : (loadFrom m a ws).wf = true := by
  induction ws generalizing m a with
  | nil => exact h
  | cons w ws ih => exact ih (Memory.wf_setWord h a w) (a + 1)

theorem resetMemory_wf : State.reset.mem.wf = true := rfl

/-- The canonical form is canonical: two canonical memories that read alike everywhere are equal data. -/
theorem Memory.eq_of_byte_eq {m n : Memory} (hm : m.wf = true) (hn : n.wf = true) (h : ∀ k, m.byte k = n.byte k) :
    m = n := by
  have low : ∀ {m : Memory} {c : Host.Cell} {k : Nat}, tableRising (c :: m) = true → k ≤ c.1 →
      tableGet m k = none := by
    intro m c k hr hk
    by_contra hne
    obtain ⟨v, hv⟩ := Option.ne_none_iff_exists'.mp hne
    have := (List.pairwise_cons.mp ((tableRising_iff _).mp hr)).1 _ (mem_of_tableGet hv)
    simp at this; omega
  induction m generalizing n with
  | nil =>
    cases n with
    | nil => rfl
    | cons d n =>
      have := h d.1
      rw [Memory.wf_iff] at hn
      exact absurd (by simpa [Memory.byte, tableGet] using this.symm) (hn.2 d (by simp))
  | cons c m ih =>
    rw [Memory.wf_iff] at hm
    cases n with
    | nil =>
      have := h c.1
      exact absurd (by simpa [Memory.byte, tableGet] using this) (hm.2 c (by simp))
    | cons d n =>
      rw [Memory.wf_iff] at hn
      have hcd : c.1 = d.1 := by
        rcases Nat.lt_trichotomy c.1 d.1 with hlt | heq | hgt
        · have := h c.1
          have hd : tableGet n c.1 = none := low hn.1 (by omega)
          have hne : d.1 ≠ c.1 := by omega
          exact absurd (by simpa [Memory.byte, tableGet, hne, hd] using this) (hm.2 c (by simp))
        · exact heq
        · have := (h d.1).symm
          have hc : tableGet m d.1 = none := low hm.1 (by omega)
          have hne : c.1 ≠ d.1 := by omega
          exact absurd (by simpa [Memory.byte, tableGet, hne, hc] using this) (hn.2 d (by simp))
      have hv : c.2 = d.2 := by simpa [Memory.byte, tableGet, hcd] using h c.1
      have hc : c = d := Prod.ext hcd hv
      subst hc
      congr 1
      have tail : ∀ {l : Memory}, tableRising (c :: l) = true → tableRising l = true := fun {l} hl =>
        (tableRising_iff l).mpr (List.pairwise_cons.mp ((tableRising_iff _).mp hl)).2
      refine ih ((Memory.wf_iff m).mpr ⟨tail hm.1, fun e he => hm.2 e (by simp [he])⟩)
        ((Memory.wf_iff n).mpr ⟨tail hn.1, fun e he => hn.2 e (by simp [he])⟩) fun k => ?_
      by_cases hk : c.1 = k
      · simp [Memory.byte, low hm.1 hk.ge, low hn.1 hk.ge]
      · simpa [Memory.byte, tableGet, hk] using h k

end Sys2Proof.Machine
end

