-- ==== Sys2Proof/Laws/PerInstr.lean ====
section
/-! SUPPORT. Statements made per instruction: the encoder sets the row's `match` bits and no other bit of its `mask`
(30_encoding.md R97; the two columns of opcode_table.json, written out here row by row). -/

namespace Sys2Proof.Laws

/-- The columns `match` and `mask` of the instruction's row. -/
def tableRow : Instr → Word × Word
  | .accMove _ => (0x0000, 0xF000)
  | .accAdd _ => (0x1000, 0xF000)
  | .accSub _ => (0x2000, 0xF000)
  | .accAnd _ => (0x3000, 0xF000)
  | .accLoad _ => (0x4000, 0xF000)
  | .accStore _ => (0x5000, 0xF000)
  | .accAddm _ => (0x6000, 0xF000)
  | .accSubm _ => (0x7000, 0xF000)
  | .accJumpu _ => (0x8000, 0xF000)
  | .accJumpz _ => (0x9000, 0xF000)
  | .accJumpnz _ => (0xA000, 0xF000)
  | .accJumpc _ => (0xB000, 0xF000)
  | .regMoveI _ _ => (0x0000, 0xF000)
  | .regAddI _ _ => (0x1000, 0xF000)
  | .regSubI _ _ => (0x2000, 0xF000)
  | .regAndI _ _ => (0x3000, 0xF000)
  | .regLoad _ => (0x4000, 0xF000)
  | .regStore _ => (0x5000, 0xF000)
  | .regAddm _ => (0x6000, 0xF000)
  | .regSubm _ => (0x7000, 0xF000)
  | .regJumpu _ => (0x8000, 0xF000)
  | .regJumpz _ => (0x9000, 0xF000)
  | .regJumpnz _ => (0xA000, 0xF000)
  | .regJumpc _ => (0xB000, 0xF000)
  | .regCall _ => (0xC000, 0xF000)
  | .regOrI _ _ => (0xD000, 0xF000)
  | .regXop1 => (0xE000, 0xF000)
  | .regMove _ _ => (0xF000, 0xF00F)
  | .regLoadInd _ _ => (0xF001, 0xF00F)
  | .regStoreInd _ _ => (0xF002, 0xF00F)
  | .regRol _ => (0xF003, 0xF00F)
  | .regRor _ => (0xF004, 0xF00F)
  | .regAdd _ _ => (0xF005, 0xF00F)
  | .regSub _ _ => (0xF006, 0xF00F)
  | .regAnd _ _ => (0xF007, 0xF00F)
  | .regOr _ _ => (0xF008, 0xF00F)
  | .regXor _ _ => (0xF009, 0xF00F)
  | .regAsl _ => (0xF00A, 0xF00F)
  | .regXop2 => (0xF00B, 0xF00F)
  | .regXop3 => (0xF00C, 0xF00F)
  | .regXop4 => (0xF00D, 0xF00F)
  | .regXop5 => (0xF00E, 0xF00F)
  | .regRet => (0xF00F, 0xF00F)

theorem encodeAcc_mask (op : BitVec 4) (k : BitVec 8) : encodeAcc op k &&& 0xF000 = op ++ (0 : BitVec 12) := by
  apply BitVec.eq_of_getLsbD_eq
  intro i hi
  simp only [encodeAcc, BitVec.getLsbD_and, BitVec.getLsbD_append]
  interval_cases i <;> simp

theorem encodeAbs_mask (op : BitVec 4) (a : BitVec 12) : encodeAbs op a &&& 0xF000 = op ++ (0 : BitVec 12) := by
  apply BitVec.eq_of_getLsbD_eq
  intro i hi
  simp only [encodeAbs, BitVec.getLsbD_and, BitVec.getLsbD_append]
  interval_cases i <;> simp

theorem encodeImm_mask (op : BitVec 4) (rd : RegIdx) (k : BitVec 8) :
    encodeImm op rd k &&& 0xF000 = op ++ (0 : BitVec 12) := by
  apply BitVec.eq_of_getLsbD_eq
  intro i hi
  simp only [encodeImm, BitVec.getLsbD_and, BitVec.getLsbD_append]
  interval_cases i <;> simp

theorem encodeReg_mask (sop : BitVec 4) (rd rs : RegIdx) :
    encodeReg sop rd rs &&& 0xF00F = extOpcode ++ (0 : BitVec 8) ++ sop := by
  apply BitVec.eq_of_getLsbD_eq
  intro i hi
  simp only [encodeReg, BitVec.getLsbD_and, BitVec.getLsbD_append]
  interval_cases i <;> simp

namespace TableRow

/-- On the bits of the row's mask, the canonical word is the row's match. -/
def Statement (i : Instr) : Prop := encode i &&& (tableRow i).2 = (tableRow i).1

theorem accMove (k : BitVec 8) : Statement (.accMove k) := encodeAcc_mask _ _
theorem accAdd (k : BitVec 8) : Statement (.accAdd k) := encodeAcc_mask _ _
theorem accSub (k : BitVec 8) : Statement (.accSub k) := encodeAcc_mask _ _
theorem accAnd (k : BitVec 8) : Statement (.accAnd k) := encodeAcc_mask _ _
theorem accLoad (a : BitVec 8) : Statement (.accLoad a) := encodeAcc_mask _ _
theorem accStore (a : BitVec 8) : Statement (.accStore a) := encodeAcc_mask _ _
theorem accAddm (a : BitVec 8) : Statement (.accAddm a) := encodeAcc_mask _ _
theorem accSubm (a : BitVec 8) : Statement (.accSubm a) := encodeAcc_mask _ _
theorem accJumpu (a : BitVec 8) : Statement (.accJumpu a) := encodeAcc_mask _ _
theorem accJumpz (a : BitVec 8) : Statement (.accJumpz a) := encodeAcc_mask _ _
theorem accJumpnz (a : BitVec 8) : Statement (.accJumpnz a) := encodeAcc_mask _ _
theorem accJumpc (a : BitVec 8) : Statement (.accJumpc a) := encodeAcc_mask _ _
theorem regMoveI (rd : RegIdx) (k : BitVec 8) : Statement (.regMoveI rd k) := encodeImm_mask _ _ _
theorem regAddI (rd : RegIdx) (k : BitVec 8) : Statement (.regAddI rd k) := encodeImm_mask _ _ _
theorem regSubI (rd : RegIdx) (k : BitVec 8) : Statement (.regSubI rd k) := encodeImm_mask _ _ _
theorem regAndI (rd : RegIdx) (k : BitVec 8) : Statement (.regAndI rd k) := encodeImm_mask _ _ _
theorem regLoad (a : BitVec 12) : Statement (.regLoad a) := encodeAbs_mask _ _
theorem regStore (a : BitVec 12) : Statement (.regStore a) := encodeAbs_mask _ _
theorem regAddm (a : BitVec 12) : Statement (.regAddm a) := encodeAbs_mask _ _
theorem regSubm (a : BitVec 12) : Statement (.regSubm a) := encodeAbs_mask _ _
theorem regJumpu (a : BitVec 12) : Statement (.regJumpu a) := encodeAbs_mask _ _
theorem regJumpz (a : BitVec 12) : Statement (.regJumpz a) := encodeAbs_mask _ _
theorem regJumpnz (a : BitVec 12) : Statement (.regJumpnz a) := encodeAbs_mask _ _
theorem regJumpc (a : BitVec 12) : Statement (.regJumpc a) := encodeAbs_mask _ _
theorem regCall (a : BitVec 12) : Statement (.regCall a) := encodeAbs_mask _ _
theorem regOrI (rd : RegIdx) (k : BitVec 8) : Statement (.regOrI rd k) := encodeImm_mask _ _ _
theorem regXop1 : Statement (.regXop1) := encodeAbs_mask _ _
theorem regMove (rd rs : RegIdx) : Statement (.regMove rd rs) := encodeReg_mask _ _ _
theorem regLoadInd (rd rs : RegIdx) : Statement (.regLoadInd rd rs) := encodeReg_mask _ _ _
theorem regStoreInd (rd rs : RegIdx) : Statement (.regStoreInd rd rs) := encodeReg_mask _ _ _
theorem regRol (rd : RegIdx) : Statement (.regRol rd) := encodeReg_mask _ _ _
theorem regRor (rd : RegIdx) : Statement (.regRor rd) := encodeReg_mask _ _ _
theorem regAdd (rd rs : RegIdx) : Statement (.regAdd rd rs) := encodeReg_mask _ _ _
theorem regSub (rd rs : RegIdx) : Statement (.regSub rd rs) := encodeReg_mask _ _ _
theorem regAnd (rd rs : RegIdx) : Statement (.regAnd rd rs) := encodeReg_mask _ _ _
theorem regOr (rd rs : RegIdx) : Statement (.regOr rd rs) := encodeReg_mask _ _ _
theorem regXor (rd rs : RegIdx) : Statement (.regXor rd rs) := encodeReg_mask _ _ _
theorem regAsl (rd : RegIdx) : Statement (.regAsl rd) := encodeReg_mask _ _ _
theorem regXop2 : Statement (.regXop2) := encodeReg_mask _ _ _
theorem regXop3 : Statement (.regXop3) := encodeReg_mask _ _ _
theorem regXop4 : Statement (.regXop4) := encodeReg_mask _ _ _
theorem regXop5 : Statement (.regXop5) := encodeReg_mask _ _ _
theorem regRet : Statement (.regRet) := encodeReg_mask _ _ _

end TableRow

end Sys2Proof.Laws
end

