-- ==== Sys2Proof/Laws/Step.lean ====
section
/-! SUPPORT. What a step can do, said once: the fetch, and the inversion of a step that answers a next state, a fault or
a refusal. -/

namespace Sys2Proof.Machine

variable {s t : State} {d : Bool}

/-- A fetch that answers: the read of the word at `pc`, and `ir` set to it. -/
theorem fetch_ok (h : fetch s = .ok t) :
    ∃ w u, memRead .fetch s.pc.toNat s = .ok (w, u) ∧ t = u.setIr w := by
  cases hm : memRead .fetch s.pc.toNat s with
  | error a => simp [fetch, hm] at h
  | ok p => exact ⟨p.1, p.2, rfl, by simpa [fetch, hm] using h.symm⟩

theorem fetch_error {f : Fault} (h : fetch s = .error f) :
    memSize s.cfg.arch ≤ s.pc.toNat ∧ f = .bounds s.pc.toNat s.markFaulted := by
  cases hm : memRead .fetch s.pc.toNat s with
  | error a =>
    obtain ⟨rfl, ha⟩ := memRead_error hm
    exact ⟨ha, by simpa [fetch, hm] using h.symm⟩
  | ok p => simp [fetch, hm] at h

theorem fetch_outOfBounds (h : memSize s.cfg.arch ≤ s.pc.toNat) :
    fetch s = .error (.bounds s.pc.toNat s.markFaulted) := by
  simp [fetch, memRead_outOfBounds _ h]

/-- A fetch changes `ir`, the draws and the history only. -/
theorem fetch_frame (h : fetch s = .ok t) :
    t.cfg = s.cfg ∧ t.pc = s.pc ∧ t.acc = s.acc ∧ t.x = s.x ∧ t.flags = s.flags ∧ t.mem = s.mem ∧
      t.devices = s.devices ∧ t.detectHalt = s.detectHalt ∧ t.report = s.report ∧ t.faulted = s.faulted := by
  obtain ⟨w, u, hu, rfl⟩ := fetch_ok h
  obtain ⟨h1, h2, -, h4, h5, h6, h7, h8, h9, h10, h11⟩ := memRead_frame hu
  exact ⟨h1, h2, h4, h5, h6, h7, h8, h9, h10, h11⟩

/-- Every way a step answers a next state: the halt-loop, or the decoded instruction's execute phase. -/
theorem stepWith_next {u : State} (h : stepWith d s = .next u) :
    ∃ t i, fetch s = .ok t ∧ decode t.cfg t.ir = .ok i ∧
      ((haltLoop d i t = true ∧ u = t.setReport .halted) ∨
        (haltLoop d i t = false ∧ ∃ v, exec i t = .next v ∧ u = v.setReport .ok)) := by
  unfold stepWith at h
  split at h
  · cases h
  next t ht =>
    unfold decodeAndExecute at h
    split at h
    · simp [raise] at h
    next i hi =>
      refine ⟨t, i, ht, hi, ?_⟩
      cases hl : haltLoop d i t
      · simp only [hl, Bool.false_eq_true, if_false] at h
        cases he : exec i t with
        | next v => exact .inr ⟨rfl, v, rfl, by simpa [he, reportOk] using h.symm⟩
        | fault f => simp [he, reportOk] at h
        | refused r => simp [he, reportOk] at h
      · exact .inl ⟨rfl, by simpa [hl] using h.symm⟩

/-- Every way a step faults: at the fetch, in the decode phase, or in the execute phase. -/
theorem stepWith_fault {f : Fault} (h : stepWith d s = .fault f) :
    (memSize s.cfg.arch ≤ s.pc.toNat ∧ f = .bounds s.pc.toNat s.markFaulted) ∨
      ∃ t, fetch s = .ok t ∧
        ((∃ e, decode t.cfg t.ir = .error e ∧ f = .unknownOpcode e.op e.sop t.markFaulted) ∨
          ∃ i, decode t.cfg t.ir = .ok i ∧ haltLoop d i t = false ∧ exec i t = .fault f) := by
  unfold stepWith at h
  split at h
  next g hg =>
    obtain ⟨h1, rfl⟩ := fetch_error hg
    exact .inl ⟨h1, by simpa using h.symm⟩
  next t ht =>
    refine .inr ⟨t, ht, ?_⟩
    unfold decodeAndExecute at h
    split at h
    next e he => exact .inl ⟨e, he, by simpa [raise] using h.symm⟩
    next i hi =>
      refine .inr ⟨i, hi, ?_⟩
      cases hl : haltLoop d i t
      · simp only [hl, Bool.false_eq_true, if_false] at h
        cases he : exec i t with
        | next v => simp [he, reportOk] at h
        | fault g => exact ⟨rfl, by simpa [he, reportOk] using h⟩
        | refused r => simp [he, reportOk] at h
      · simp [hl] at h

/-- The execute phase of the decoded instruction runs when the fetch and the decode answer and no halt-loop is met. -/
theorem stepWith_of_decoded {i : Instr} (hf : fetch s = .ok t) (hd : decode t.cfg t.ir = .ok i)
    (hl : haltLoop d i t = false) : stepWith d s = reportOk (exec i t) := by
  simp [stepWith, hf, decodeAndExecute, hd, hl]

theorem step_eq : step s = stepWith s.detectHalt s := rfl

end Sys2Proof.Machine
end

