-- ==== Sys2Proof/Tests/Slice0.lean ====
section
/-! SUPPORT. Tests of the model's own work. The expected values are the spec's: the tables of 95_test_vectors.md (T43 to
T180, S1 to S9), or the encoding tables of 30_encoding.md. The last part shows, for each statement with hypotheses, a
state and operands that meet them. -/

namespace Sys2Proof.Tests

open Sys2Proof.Machine

/-! Well-formed and ill-formed terms: a register operand above 3 is refused (R28, R85, R87). -/

theorem test_wellFormed_register_three : (Instr.regAdd 3 3).wellFormed = true ∧ (Instr.regMoveI 3 0xFF).wellFormed = true ∧
    (Instr.regAsl 3).wellFormed = true := by decide

theorem test_illFormed_immediate_register : (Instr.regMoveI 4 0x00).wellFormed = false ∧
    (Instr.regAddI 4 0x00).wellFormed = false ∧ (Instr.regSubI 7 0x00).wellFormed = false ∧
    (Instr.regAndI 5 0x00).wellFormed = false ∧ (Instr.regOrI 6 0x00).wellFormed = false := by decide

theorem test_illFormed_destination_register : (Instr.regMove 4 0).wellFormed = false ∧
    (Instr.regLoadInd 4 0).wellFormed = false ∧ (Instr.regStoreInd 4 0).wellFormed = false ∧
    (Instr.regAdd 4 0).wellFormed = false ∧ (Instr.regSub 4 0).wellFormed = false ∧
    (Instr.regAnd 4 0).wellFormed = false ∧ (Instr.regOr 4 0).wellFormed = false ∧
    (Instr.regXor 4 0).wellFormed = false := by decide

theorem test_illFormed_source_register : (Instr.regMove 0 4).wellFormed = false ∧
    (Instr.regLoadInd 0 4).wellFormed = false ∧ (Instr.regStoreInd 0 4).wellFormed = false ∧
    (Instr.regAdd 0 4).wellFormed = false ∧ (Instr.regSub 0 4).wellFormed = false ∧
    (Instr.regAnd 0 4).wellFormed = false ∧ (Instr.regOr 0 4).wellFormed = false ∧
    (Instr.regXor 0 4).wellFormed = false := by decide

theorem test_illFormed_unary_register : (Instr.regRol 4).wellFormed = false ∧ (Instr.regRor 4).wellFormed = false ∧
    (Instr.regAsl 4).wellFormed = false := by decide

/-! Decoding: a word for every constructor, written bit by bit from the formats R82 to R87 and the rows of R90 to R92;
unused bits are set in some of them (R95). -/

/-- The decoder of the ACC variant with `ACC_HAS_JUMPC`. -/
def accDecoder (w : Word) : Except UnknownOpcode Instr := decode { Config.default .acc with accHasJumpc := true } w

/-- The decoder of the REG variant. -/
def regDecoder (w : Word) : Except UnknownOpcode Instr := decode (Config.default .reg) w

theorem test_decode_acc : accDecoder 0b0000_0000_0010_1010 = .ok (.accMove 0x2A) ∧
    accDecoder 0b0001_0000_0000_0101 = .ok (.accAdd 0x05) ∧ accDecoder 0b0010_0000_1000_0001 = .ok (.accSub 0x81) ∧
    accDecoder 0b0011_1111_0000_1111 = .ok (.accAnd 0x0F) ∧ accDecoder 0b0100_1010_1111_1110 = .ok (.accLoad 0xFE) ∧
    accDecoder 0b0101_0000_0001_0001 = .ok (.accStore 0x11) ∧ accDecoder 0b0110_0000_0001_0010 = .ok (.accAddm 0x12) ∧
    accDecoder 0b0111_0000_0001_0010 = .ok (.accSubm 0x12) ∧ accDecoder 0b1000_1111_0000_0101 = .ok (.accJumpu 0x05) ∧
    accDecoder 0b1001_0000_0000_1001 = .ok (.accJumpz 0x09) ∧ accDecoder 0b1010_0000_0000_0010 = .ok (.accJumpnz 0x02) ∧
    accDecoder 0b1011_0000_0000_0111 = .ok (.accJumpc 0x07) := by decide

theorem test_decode_reg_primary : regDecoder 0b0000_11_00_0010_1010 = .ok (.regMoveI 3 0x2A) ∧
    regDecoder 0b0001_01_11_0000_0001 = .ok (.regAddI 1 0x01) ∧ regDecoder 0b0010_10_00_1111_1111 = .ok (.regSubI 2 0xFF) ∧
    regDecoder 0b0011_11_00_1111_0000 = .ok (.regAndI 3 0xF0) ∧ regDecoder 0b0100_0001_0010_0011 = .ok (.regLoad 0x123) ∧
    regDecoder 0b0101_1111_1111_1111 = .ok (.regStore 0xFFF) ∧ regDecoder 0b0110_0010_0000_0000 = .ok (.regAddm 0x200) ∧
    regDecoder 0b0111_0000_0000_0101 = .ok (.regSubm 0x005) ∧ regDecoder 0b1000_1010_1011_1100 = .ok (.regJumpu 0xABC) ∧
    regDecoder 0b1001_0000_0010_0000 = .ok (.regJumpz 0x020) ∧ regDecoder 0b1010_0000_0000_0010 = .ok (.regJumpnz 0x002) ∧
    regDecoder 0b1011_0001_0000_0000 = .ok (.regJumpc 0x100) ∧ regDecoder 0b1100_0001_0000_0000 = .ok (.regCall 0x100) ∧
    regDecoder 0b1101_01_00_1111_1111 = .ok (.regOrI 1 0xFF) ∧ regDecoder 0b1110_1010_1011_1100 = .ok .regXop1 := by decide

theorem test_decode_reg_secondary : regDecoder 0b1111_00_01_1111_0000 = .ok (.regMove 0 1) ∧
    regDecoder 0b1111_11_10_0000_0001 = .ok (.regLoadInd 3 2) ∧ regDecoder 0b1111_01_10_0000_0010 = .ok (.regStoreInd 1 2) ∧
    regDecoder 0b1111_10_00_0000_0011 = .ok (.regRol 2) ∧ regDecoder 0b1111_11_01_0000_0100 = .ok (.regRor 3) ∧
    regDecoder 0b1111_10_01_0000_0101 = .ok (.regAdd 2 1) ∧ regDecoder 0b1111_01_00_0000_0110 = .ok (.regSub 1 0) ∧
    regDecoder 0b1111_10_11_0000_0111 = .ok (.regAnd 2 3) ∧ regDecoder 0b1111_00_11_0000_1000 = .ok (.regOr 0 3) ∧
    regDecoder 0b1111_00_01_0000_1001 = .ok (.regXor 0 1) ∧ regDecoder 0b1111_01_11_1111_1010 = .ok (.regAsl 1) ∧
    regDecoder 0b1111_00_00_0000_1011 = .ok .regXop2 ∧ regDecoder 0b1111_00_00_0000_1100 = .ok .regXop3 ∧
    regDecoder 0b1111_00_00_0000_1101 = .ok .regXop4 ∧ regDecoder 0b1111_00_00_0000_1110 = .ok .regXop5 ∧
    regDecoder 0b1111_11_11_1111_1111 = .ok .regRet := by decide

theorem test_decode_unknown : accDecoder 0b1100_0000_0000_0000 = .error ⟨0xC, none⟩ ∧
    decode (Config.default .acc) 0b1011_0000_0000_0111 = .error ⟨0xB, none⟩ := by decide

theorem test_decodeTableWord : decodeTableWord 16 0x0C2A = some (.regMoveI 3 0x2A) ∧
    decodeTableWord 16 0xF905 = some (.regAdd 2 1) := by decide

/-! Small states. -/

/-- The state a step or an operation leaves, if it completes. -/
def nextOf : Result → Option State
  | .next t => some t
  | .fault _ => none
  | .refused _ => none

/-- The fault, if there is one. -/
def faultOf : Result → Option Fault
  | .next _ => none
  | .fault f => some f
  | .refused _ => none

/-- The word `w` at address `p`, about to be fetched. -/
def placed (s : State) (p w : Nat) : State := State.withFetchWord { s with pc := BitVec.ofNat 16 p } 16 w

/-- The state after one step on the word `w` at address `p`. -/
def after (s : State) (p w : Nat) : Option State := nextOf (step (placed s p w))

/-- The ACC machine at reset, with an accumulator. -/
def accMachine (acc : Word) : State := { State.resetWith (Config.default .acc) with acc := acc }

/-- The REG machine at reset, with its first four registers. -/
def regMachine (a b c d : Word) : State := { State.reset with x := #v[a, b, c, d, 0x4444, 0x5555, 0x6666, 0x7777] }

/-- The flags `z n p c v`. -/
def flagBits (z n p c v : Bool) : Flags := { zero := z, negative := n, positive := p, carry := c, overflow := v }

/-- The flags `zero` and `carry` set (T43). -/
def zeroCarry : Flags := flagBits true false false true false

/-- The accumulator, the flags and `pc`. -/
def accView (t : State) : Word × Flags × Word := (t.acc, t.flags, t.pc)

/-- One register and the flags. -/
def regView (i : RegIdx) (t : State) : Word × Flags := (t.reg i, t.flags)

/-! ACC instructions, one step each (T43 to T78). -/

/-- T43. -/
theorem test_acc_move_keeps_flags :
    (after { accMachine 0x1234 with flags := zeroCarry } 0 0x0F2A).map accView = some (0x002A, zeroCarry, 1) := by decide

/-- T44. -/
theorem test_acc_move_zero_extends : (after (accMachine 0) 0 0x00FF).map State.acc = some 0x00FF := by decide

/-- T48. -/
theorem test_acc_add_wraps :
    (after (accMachine 0x00FF) 0 0x1001).map accView = some (0, flagBits true false false true false, 1) := by decide

/-- T47. -/
theorem test_acc_add_loses_high_byte :
    (after (accMachine 0x1234) 0 0x1001).map accView = some (0x0035, flagBits false false true false false, 1) := by decide

/-- T52. -/
theorem test_acc_sub_borrow :
    (after { accMachine 0 with flags := zeroCarry } 0 0x2001).map accView =
      some (0x00FF, flagBits false true false false false, 1) := by decide

/-- T53. -/
theorem test_acc_sub_overflow :
    (after (accMachine 0x0080) 0 0x2001).map accView = some (0x007F, flagBits false false true false true, 1) := by decide

/-- T56. -/
theorem test_acc_and_clears_high_byte :
    (after (accMachine 0xAB80) 0 0x30FF).map accView = some (0x0080, flagBits false true false false false, 1) := by decide

/-- T58. -/
theorem test_acc_load :
    (after ((accMachine 0).setMemWord 0x10 0x1234) 1 0x4010).map accView = some (0x1234, Flags.cleared, 2) := by decide

/-- T60: a store in front of the next fetch. -/
theorem test_acc_store : (after (accMachine 0x8001) 1 0x5002).map (fun t => (t.pc, t.mem.word 2)) = some (2, 0x8001) := by
  decide

/-- T75. -/
theorem test_acc_store_device : ∀ s, nextOf (State.memmap 7 [0x20] ⟨1, 2⟩ (accMachine 0x0041)) = some s →
    (after s 0 0x5020).map (fun t => (t.mem.word 0x20, t.history.head?)) =
      some (0, some ⟨.write, 0x20, 0x0041, .device 7 2⟩) := by
  intro s h; cases h; decide

/-- T62. -/
theorem test_acc_addm_low_byte : (after ((accMachine 0x0005).setMemWord 0x12 0x0103) 1 0x6012).map accView =
    some (0x0008, flagBits false false true false false, 2) := by decide

/-- T63. -/
theorem test_acc_subm : (after ((accMachine 0x0005).setMemWord 0x12 0x0007) 1 0x7012).map accView =
    some (0x00FE, flagBits false true false false false, 2) := by decide

/-- T64. -/
theorem test_acc_jumpu : (after (accMachine 0) 2 0x8005).map (fun t => (t.pc, t.report)) = some (5, .ok) := by decide

/-- T67. -/
theorem test_acc_jumpu_halts : (after (accMachine 0) 5 0x8F05).map (fun t => (t.pc, t.report)) = some (5, .halted) := by
  decide

/-- T70: a conditional jump to itself is no halt. -/
theorem test_acc_jumpz_taken :
    (after { accMachine 0 with flags := zeroCarry } 3 0x9003).map (fun t => (t.pc, t.report)) = some (3, .ok) := by decide

/-- T69. -/
theorem test_acc_jumpz_not_taken : (after (accMachine 0) 3 0x9009).map State.pc = some 4 := by decide

/-- T71. -/
theorem test_acc_jumpnz_taken : (after (accMachine 0) 4 0xA002).map State.pc = some 2 := by decide

/-- T72. -/
theorem test_acc_jumpnz_not_taken :
    (after { accMachine 0 with flags := zeroCarry } 4 0xA002).map State.pc = some 5 := by decide

/-- T73, with `ACC_HAS_JUMPC`. -/
theorem test_acc_jumpc : (after { State.resetWith { Config.default .acc with accHasJumpc := true } with
    flags := zeroCarry } 1 0xB007).map State.pc = some 7 := by decide

/-- T74. -/
theorem test_acc_unknown_opcode : (faultOf (step (placed (accMachine 0) 9 0xFFFF))).map
    (fun f => (decide (f = .unknownOpcode 0xF none (faultLeft f)), (faultLeft f).pc, (faultLeft f).ir)) =
      some (true, 9, 0xFFFF) := by decide

/-- T78. -/
theorem test_acc_fetch_out_of_bounds : (faultOf (step { accMachine 0 with pc := 0x0100, ir := 0x1234 })).map
    (fun f => (decide (f = .bounds 0x0100 (faultLeft f)), (faultLeft f).pc, (faultLeft f).ir)) =
      some (true, 0x0100, 0x1234) := by decide

/-- The last paragraph of 95_test_vectors.md: T49 with `ACC_WRITEBACK = sext`, T58 with `ACC_LOAD_FULL = false`. -/
theorem test_acc_other_parameters :
    (after { accMachine 0x007F with cfg := { Config.default .acc with accWriteback := .sext } } 0 0x1001).map State.acc =
      some 0xFF80 ∧
    (after { (accMachine 0).setMemWord 0x10 0x1234 with cfg := { Config.default .acc with accLoadFull := false } } 1
      0x4010).map State.acc = some 0x0034 := by decide

/-! REG primary instructions, one step each (T80 to T121). -/

/-- T81. -/
theorem test_reg_moveI_sign_extends :
    (after (regMachine 0 0 0 0) 0 0x0480).map (regView 1) = some (0xFF80, Flags.cleared) := by decide

/-- T86. -/
theorem test_reg_addI_minus_one :
    (after (regMachine 5 0 0 0) 0 0x10FF).map (regView 0) = some (4, flagBits false false true true false) := by decide

/-- T88. -/
theorem test_reg_addI_overflow :
    (after (regMachine 0x7FFF 0 0 0) 0 0x1001).map (regView 0) = some (0x8000, flagBits false true false false true) := by
  decide

/-- T92. -/
theorem test_reg_subI_minus_one :
    (after (regMachine 5 0 0 0) 0 0x20FF).map (regView 0) = some (6, flagBits false false true false false) := by decide

/-- T93. -/
theorem test_reg_subI_overflow :
    (after (regMachine 0x8000 0 0 0) 0 0x2001).map (regView 0) = some (0x7FFF, flagBits false false true false true) := by
  decide

/-- T94. -/
theorem test_reg_andI : (after (regMachine 0 0 0 0xABCD) 0 0x3CF0).map (regView 3) =
    some (0x00C0, flagBits false false true false false) := by decide

/-- T98. -/
theorem test_reg_orI_zero_extends : (after (regMachine 0x8000 0 0 0) 0 0xD0FF).map (regView 0) =
    some (0x80FF, flagBits false true false false false) := by decide

/-- T100. -/
theorem test_reg_load : (after ((regMachine 1 2 3 4).setMemWord 0x123 0xBEEF) 0 0x4123).map (regView 0) =
    some (0xBEEF, Flags.cleared) := by decide

/-- T101. -/
theorem test_reg_store : (after (regMachine 0x0014 0 0 0) 0 0x5FFF).map (fun t => (t.mem.word 0xFFF, t.pc)) =
    some (0x0014, 1) := by decide

/-- T102. -/
theorem test_reg_addm : (after ((regMachine 0xFFFF 0 0 0).setMemWord 0x200 0x0002) 0 0x6200).map (regView 0) =
    some (1, flagBits false false true true false) := by decide

/-- T104. -/
theorem test_reg_subm : (after ((regMachine 5 0 0 0).setMemWord 0x200 0xFFFF) 0 0x7200).map (regView 0) =
    some (6, flagBits false false true false false) := by decide

/-- T111. -/
theorem test_reg_jumpu : (after (regMachine 0 0 0 0) 3 0x8010).map (fun t => (t.pc, t.report)) = some (0x10, .ok) := by
  decide

/-- T113: without detection the self-jump executes. -/
theorem test_reg_jumpu_without_detection :
    (after ((regMachine 0 0 0 0).withDetectHalt false) 0x10 0x8010).map (fun t => (t.pc, t.report)) = some (0x10, .ok) := by
  decide

/-- T114. -/
theorem test_reg_jumpz : (after { regMachine 0 0 0 0 with flags := zeroCarry } 7 0x9020).map State.pc = some 0x20 ∧
    (after (regMachine 0 0 0 0) 7 0x9020).map State.pc = some 8 := by decide

/-- T115. -/
theorem test_reg_jumpnz : (after (regMachine 0 0 0 0) 5 0xA002).map State.pc = some 2 ∧
    (after { regMachine 0 0 0 0 with flags := zeroCarry } 5 0xA002).map State.pc = some 6 := by decide

/-- T116. -/
theorem test_reg_jumpc : (after { regMachine 0 0 0 0 with flags := zeroCarry } 9 0xB100).map State.pc = some 0x100 ∧
    (after (regMachine 0 0 0 0) 9 0xB100).map State.pc = some 0xA := by decide

/-- Which instruction an `UnimplementedFault` names, with `pc` and `ir` as the step left them. -/
def unimplementedOf : Result → Option (RegOp × Word × Word)
  | .next _ => none
  | .fault (.unimplemented op t) => some (op, t.pc, t.ir)
  | .fault (.bounds _ _) => none
  | .fault (.unknownOpcode _ _ _) => none
  | .fault (.registerIndex _ _) => none
  | .refused _ => none

/-- T118: no halt. -/
theorem test_reg_call : unimplementedOf (step (placed (regMachine 0 0 0 0) 4 0xC004)) = some (.call, 4, 0xC004) := by decide

/-- T119. -/
theorem test_reg_xop1 : unimplementedOf (step (placed (regMachine 0 0 0 0) 2 0xEABC)) = some (.xop1, 2, 0xEABC) := by decide

/-- T121: a fetch from a device; the word is a free value. -/
theorem test_reg_fetch_from_device : ∀ s, nextOf (State.memmap 7 [0] ⟨1, 2⟩ (regMachine 0 0 0 0)) = some s →
    ∃ t, fetch s = .ok t ∧ t.ir = Config.deviceWord 0 ∧ t.draws = 1 := by
  intro s h; cases h; exact ⟨_, rfl, rfl, rfl⟩

/-! REG secondary instructions, one step each (T130 to T163). -/

/-- T130. -/
theorem test_reg_move : (after (regMachine 0 0x1234 0 0) 0 0xF100).map (regView 0) = some (0x1234, Flags.cleared) := by
  decide

/-- T134a: the address is read before the write. -/
theorem test_reg_loadInd_same_register :
    (after ((regMachine 0 0x200 0 0).setMemWord 0x200 0x00AA) 0 0xF501).map (regView 1) = some (0x00AA, Flags.cleared) := by
  decide

/-- T133. -/
theorem test_reg_loadInd_out_of_bounds : (faultOf (step (placed (regMachine 0 0x1000 0 0) 0 0xF101))).map
    (fun f => (decide (f = .bounds 0x1000 (faultLeft f)), (faultLeft f).pc, (faultLeft f).ir)) = some (true, 0, 0xF101) := by
  decide

/-- T136: `rd` is the data and `rs` the address. -/
theorem test_reg_storeInd : (after (regMachine 0x0014 0x200 0 0) 0 0xF102).map (fun t => (t.mem.word 0x200, t.mem.word 0x14))
    = some (0x0014, 0) := by decide

/-- T137. -/
theorem test_reg_storeInd_out_of_bounds : (faultOf (step (placed (regMachine 0x14 0xFFFF 0 0) 0 0xF102))).map
    (fun f => decide (f = .bounds 0xFFFF (faultLeft f))) = some true := by decide

/-- T139. -/
theorem test_reg_rol : (after (regMachine 0 0 0x8001 0) 0 0xF803).map (regView 2) =
    some (0x0003, flagBits false false true false false) := by decide

/-- T142. -/
theorem test_reg_ror : (after (regMachine 0 0 0 0x0001) 0 0xFC04).map (regView 3) =
    some (0x8000, flagBits false true false false false) := by decide

/-- T145: the lost bit is no carry. -/
theorem test_reg_asl : (after (regMachine 0x8000 0 0 0) 0 0xF00A).map (regView 0) =
    some (0, flagBits true false false false false) := by decide

/-- T147: one register is both operands. -/
theorem test_reg_add_itself : (after (regMachine 0x8000 0 0 0) 0 0xF005).map (regView 0) =
    some (0, flagBits true false false true true) := by decide

/-- T152: `rd` is the minuend. -/
theorem test_reg_sub_order : (after (regMachine 5 3 0 0) 0 0xF406).map (regView 1) =
    some (0xFFFE, flagBits false true false false false) := by decide

/-- T155. -/
theorem test_reg_and : (after (regMachine 0 0 0xFF00 0x0FF0) 0 0xFB07).map (regView 2) =
    some (0x0F00, flagBits false false true false false) := by decide

/-- T157. -/
theorem test_reg_or : (after (regMachine 0x8000 0 0 1) 0 0xF308).map (regView 0) =
    some (0x8001, flagBits false true false false false) := by decide

/-- T160. -/
theorem test_reg_xor : (after (regMachine 0xFFFF 0x7FFF 0 0) 0 0xF109).map (regView 0) =
    some (0x8000, flagBits false true false false false) := by decide

/-- T161. -/
theorem test_reg_xop2_to_xop5 :
    unimplementedOf (step (placed (regMachine 1 2 3 4) 6 0xF00B)) = some (.xop2, 6, 0xF00B) ∧
    unimplementedOf (step (placed (regMachine 1 2 3 4) 6 0xF00C)) = some (.xop3, 6, 0xF00C) ∧
    unimplementedOf (step (placed (regMachine 1 2 3 4) 6 0xF00D)) = some (.xop4, 6, 0xF00D) ∧
    unimplementedOf (step (placed (regMachine 1 2 3 4) 6 0xF00E)) = some (.xop5, 6, 0xF00E) := by decide

/-- T163. -/
theorem test_reg_ret : unimplementedOf (step (placed (regMachine 1 2 3 4) 6 0xFFFF)) = some (.ret, 6, 0xFFFF) := by decide

/-! The host's operations. -/

/-- A REG machine with one device, 7, mapped at address 0x20 with the hooks 1 and 2. -/
def deviceMachine : State := { State.reset with devices := { addrs := [(0x20, 7)], hooks := [(7, ⟨1, 2⟩)] } }

/-- R272: an image of two words. -/
theorem test_construct : (State.construct (Config.default .reg) [0x0C2A, 0x8001]).mem =
    [(0, 0x2A), (1, 0x0C), (2, 0x01), (3, 0x80)] := by decide

/-- R284: the last register and one past it. -/
theorem test_host_registers : nextOf (hostSet (.reg 7 0x1234) State.reset) = some (State.reset.setReg 7 0x1234) ∧
    faultOf (hostSet (.reg 8 0x1234) State.reset) = some (.registerIndex 8 State.reset) ∧
    hostGet .flags State.reset = .value (.flags Flags.cleared) State.reset := by decide

/-- R12, R284: a flag the host writes is what the next JUMPZ reads (T68). -/
theorem test_host_flag_write :
    (nextOf (hostSet (.flags (flagBits true false false false false)) (accMachine 0))).bind
      (fun s => (after s 3 0x9009).map State.pc) = some 9 := by decide

/-- R12, R284: the mapping table, read after a `memmap`. -/
theorem test_host_map_read : (nextOf (State.memmap 7 [0x20] ⟨1, 2⟩ State.reset)).map (hostGet .map) =
    some (.value (.map deviceMachine.devices) deviceMachine) := by decide

/-- R62, R63: the device 7, all of whose addresses went to device 8, keeps its hooks (log 38). -/
theorem test_overwritten_device_stays_registered :
    (nextOf (State.memmap 7 [0x20] ⟨1, 2⟩ State.reset)).bind (fun s => (nextOf (State.memmap 8 [0x20] ⟨3, 4⟩ s)).map
      (fun t => (t.devices.route 0x20, tableGet t.devices.hooks 7))) = some (some (8, ⟨3, 4⟩), some ⟨1, 2⟩) := by decide

/-! Witnesses: for each statement of Certificates/Slice0/Obligations.lean with hypotheses, values that meet them, one
for each clause, at the boundaries of the ranges. -/

/-- A REG machine in which every word is a RET. -/
def retOnly : Config := { Config.default .reg with opmap := { OpMap.standard with
  primary := Vector.replicate 16 (some .ret), secondary := Vector.replicate 16 (some .ret) } }

/-- A REG machine without any instruction. -/
def noOpcodes : Config := { Config.default .reg with opmap := { OpMap.standard with
  primary := Vector.replicate 16 none, secondary := Vector.replicate 16 none } }

theorem retOnly_decodes (w : Word) : decode retOnly w = .ok .regRet := by
  simp [decode, decodeReg, retOnly, Config.default, rowOf, regInstr]

theorem deviceMachine_devicesOk : devicesOk deviceMachine := by
  refine ⟨by decide, by decide, fun a id h => ?_⟩
  obtain ⟨rfl, rfl⟩ : a = 0x20 ∧ id = 7 := by simpa [deviceMachine] using mem_of_tableGet h
  decide

theorem test_witness_DecodeOfEncode :
    ((Instr.regXor 3 3).wellFormed = true ∧ (false = true ∨ ∀ a, Instr.regXor 3 3 ≠ .accJumpc a)) ∧
    ((Instr.accJumpc 0xFF).wellFormed = true ∧ (true = true ∨ ∀ a, Instr.accJumpc 0xFF ≠ .accJumpc a)) :=
  ⟨⟨rfl, .inr fun _ h => by cases h⟩, rfl, .inl rfl⟩

theorem test_witness_AccUnknownOpcodeWords : 0xB ≤ (0xB000 : Word).toNat / 4096 ∧ ¬ 0xB ≤ (0xAFFF : Word).toNat / 4096 ∧
    0xC ≤ (0xC000 : Word).toNat / 4096 ∧ ¬ 0xC ≤ (0xBFFF : Word).toNat / 4096 := by decide

/-- One word for each of the 16 opcodes, with its other fields at their largest. -/
def topWords : List Word := [0x0FFF, 0x1FFF, 0x2FFF, 0x3FFF, 0x4FFF, 0x5FFF, 0x6FFF, 0x7FFF, 0x8FFF, 0x9FFF, 0xAFFF, 0xBFFF,
  0xCFFF, 0xDFFF, 0xEFFF, 0xFFFF]

theorem test_witness_AccWordsDecodeByRow : topWords.map (fun w => w.toNat / 4096) = List.range 16 ∧
    topWords.map (fun w => w.toNat % 256) = List.replicate 16 (0xFF : BitVec 8).toNat := by decide

theorem test_witness_RegPrimaryWordsDecodeByRow : topWords.map (fun w => w.toNat / 4096) = List.range 16 ∧
    topWords.map (fun w => (w.toNat / 1024 % 4, w.toNat % 256, w.toNat % 4096)) =
      List.replicate 16 ((3 : RegIdx).val, (0xFF : BitVec 8).toNat, (0xFFF : BitVec 12).toNat) := by decide

theorem test_witness_RegSecondaryWordsDecodeByRow :
    (List.range 16).map (fun i => (BitVec.ofNat 16 (0xFFF0 + i)).toNat % 16) = List.range 16 ∧
    (List.range 16).map (fun i => let w := BitVec.ofNat 16 (0xFFF0 + i)
      (w.toNat / 4096, w.toNat / 1024 % 4, w.toNat / 256 % 4)) =
        List.replicate 16 (0xF, (3 : RegIdx).val, (3 : RegIdx).val) := by decide

theorem test_witness_DecodedInstructionFitsVariant :
    decode (Config.default .acc) 0x8FFF = .ok (.accJumpu 0xFF) ∧ decode (Config.default .reg) 0xFF00 = .ok (.regMove 3 3) := by
  decide

/-- Both sides of carry and of overflow, at the least width too. -/
theorem test_witness_AddLaw : 0 < 1 ∧ (aluAdd (1 : BitVec 1) 1).carry = true ∧ (aluAdd (0x7F : BitVec 8) 0x80).carry = false ∧
    (aluAdd (0x80 : BitVec 8) 0x80).carry = true ∧ (aluAdd (0x7FFF : BitVec 16) 1).overflow = true ∧
    (aluAdd (0xFFFF : BitVec 16) 1).overflow = false := by decide

theorem test_witness_SubtractLaw : 0 < 1 ∧ (aluSub (0 : BitVec 1) 1).r = 1 ∧ (aluSub (0x00 : BitVec 8) 0x80).overflow = true ∧
    (aluSub (0xFF : BitVec 8) 0x7F).overflow = false := by decide

theorem test_witness_RotateAndShiftBits : 14 < 15 ∧ (aluRol 0x4000).r.getLsbD (14 + 1) = true ∧
    (aluRor 0x8000).r.getLsbD 14 = true ∧ (aluAsl 0x4000).r.getLsbD (14 + 1) = true := by decide

theorem test_witness_RegAbsolute_results : State.reset.cfg.arch = .reg := rfl

/-- Any word at the last address, and one word for each of the seven encodings. -/
theorem test_witness_UnimplementedWordsFault :
    (∀ w : Word, let s := { State.reset with pc := 0xFFF, mem := Memory.setWord [] 0xFFF w }
      s.cfg = Config.default .reg ∧ s.pc.toNat < 4096 ∧ s.devices.route s.pc.toNat = none ∧
        s.mem.word s.pc.toNat = w) ∧
    (0xCFFF : Word).toNat / 4096 = 0xC ∧ (0xE000 : Word).toNat / 4096 = 0xE ∧
    ([0xFFFB, 0xF00C, 0xFFFD, 0xF00E, 0xFFFF] : List Word).map (fun w => (w.toNat / 4096, w.toNat % 16)) =
      [(0xF, 0xB), (0xF, 0xC), (0xF, 0xD), (0xF, 0xE), (0xF, 0xF)] :=
  ⟨fun w => ⟨rfl, (by decide : (0xFFF : Word).toNat < 4096), rfl, by simp [Memory.word_setWord]⟩, by decide, by decide, by decide⟩

/-- The last address of each variant and the first one past it. -/
theorem test_witness_RegIndirect_bounds :
    ((regMachine 0 0x0FFF 0 0).reg 1).toNat < memSize (regMachine 0 0x0FFF 0 0).cfg.arch ∧
    memSize (regMachine 0 0x1000 0 0).cfg.arch ≤ ((regMachine 0 0x1000 0 0).reg 1).toNat := by decide

theorem test_witness_MemReadRule_MemWriteRule : memSize (accMachine 0).cfg.arch ≤ 0x100 ∧ 0xFF < memSize (accMachine 0).cfg.arch ∧
    memSize State.reset.cfg.arch ≤ 0x1000 ∧ 0xFFF < memSize State.reset.cfg.arch ∧
    State.reset.devices.route 0xFFF = none ∧ deviceMachine.devices.route 0x20 = some (7, ⟨1, 2⟩) := by decide

theorem test_witness_StoredWordIsFetchedNext :
    (∃ t, exec (.accStore 1) (accMachine 0x1005) = .next t ∧ (accMachine 0x1005).devices.route 1 = none ∧ t.pc.toNat = 1) ∧
    (∃ t, exec (.regStore 1) (regMachine 5 0 0 0) = .next t ∧ (regMachine 5 0 0 0).devices.route 1 = none ∧
      t.pc.toNat = 1) ∧
    (∃ t, exec (.regStoreInd 0 1) (regMachine 5 1 0 0) = .next t ∧ (regMachine 5 1 0 0).devices.route 1 = none ∧
      t.pc = (regMachine 5 1 0 0).reg 1) :=
  ⟨⟨_, rfl, by decide, by decide⟩, ⟨_, rfl, by decide, by decide⟩, ⟨_, rfl, by decide, by decide⟩⟩

theorem test_witness_MemmapMapsExactly : (∀ a ∈ [0, 0xFFF, 0x20], a < memSize deviceMachine.cfg.arch) ∧
    devicesOk deviceMachine := ⟨by decide, deviceMachine_devicesOk⟩

theorem test_witness_UnmapRemovesDevice : devicesOk deviceMachine ∧
    (tableGet deviceMachine.devices.hooks 7).isSome = true ∧ tableGet deviceMachine.devices.addrs 0x20 = some 7 :=
  ⟨deviceMachine_devicesOk, by decide, by decide⟩

theorem test_witness_ParametersNeverChange :
    (∃ t, step State.reset = .next t) ∧ (∃ f, step (placed State.reset 0 0xC000) = .fault f) ∧
    (∃ t, exec (.regMove 0 1) State.reset = .next t) ∧ (∃ f, exec .regRet State.reset = .fault f) ∧
    (∃ t, State.memmap 7 [0xFFF] ⟨1, 2⟩ State.reset = .next t) ∧ (∃ t, State.unmap 7 deviceMachine = .next t) ∧
    (∃ t, hostSet (.reg 7 0x1234) State.reset = .next t) ∧ (∃ f, hostSet (.reg 8 0x1234) State.reset = .fault f) ∧
    (∃ v t, hostGet (.mem 0xFFF) State.reset = .value v t) ∧ ∃ f, hostGet (.mem 0x1000) State.reset = .fault f :=
  ⟨⟨_, rfl⟩, ⟨_, rfl⟩, ⟨_, rfl⟩, ⟨_, rfl⟩, ⟨_, rfl⟩, ⟨_, rfl⟩, ⟨_, rfl⟩, ⟨_, rfl⟩, ⟨_, _, rfl⟩, ⟨_, rfl⟩⟩

theorem test_witness_StepKeepsMapping :
    (∃ t, step deviceMachine = .next t) ∧ (∃ f, step (placed deviceMachine 0 0xE000) = .fault f) ∧
    (∃ t, exec (.regStore 0x20) deviceMachine = .next t) ∧ (∃ t, hostSet (.mem 0x20 0x1234) deviceMachine = .next t) ∧
    (∃ f, hostSet (.mem 0x1000 0x1234) deviceMachine = .fault f) ∧
    (∃ v t, hostGet (.mem 0x20) deviceMachine = .value v t) ∧ ∃ f, hostGet (.reg 8) deviceMachine = .fault f :=
  ⟨⟨_, rfl⟩, ⟨_, rfl⟩, ⟨_, rfl⟩, ⟨_, rfl⟩, ⟨_, rfl⟩, ⟨_, _, rfl⟩, ⟨_, rfl⟩⟩

theorem test_witness_HostAccesses : (accMachine 0).cfg.arch = .acc ∧ State.reset.cfg.arch = .reg ∧ (7 : RegIdx).val = 7 ∧
    8 ≤ 8 ∧ 0xFFF < memSize State.reset.cfg.arch ∧ memSize State.reset.cfg.arch ≤ 0x1000 ∧
    0xFF < memSize (accMachine 0).cfg.arch ∧ memSize (accMachine 0).cfg.arch ≤ 0x100 := by decide

theorem test_witness_StepRunsDecodedInstruction :
    (let s := placed State.reset 0xFFF 0xF905
     s.pc.toNat < memSize s.cfg.arch ∧ ¬(s.detectHalt = true ∧ jumpuTarget (.regAdd 2 1) = some s.pc) ∧
       s.devices.route s.pc.toNat = none ∧ decode s.cfg (s.mem.word s.pc.toNat) = .ok (.regAdd 2 1)) ∧
    (let s := { deviceMachine with cfg := retOnly, pc := 0x20 }
     s.pc.toNat < memSize s.cfg.arch ∧ ¬(s.detectHalt = true ∧ jumpuTarget .regRet = some s.pc) ∧
       s.devices.route s.pc.toNat = some (7, ⟨1, 2⟩) ∧ decode s.cfg (Config.deviceWord s.draws) = .ok .regRet) :=
  ⟨by decide, by decide, by decide, by decide, retOnly_decodes _⟩

theorem test_witness_FetchOutOfBoundsFaults :
    (let s := { State.reset with pc := 0x1000 }
     memSize s.cfg.arch ≤ s.pc.toNat) ∧
    (let s := { accMachine 0 with pc := 0x0100 }
     memSize s.cfg.arch ≤ s.pc.toNat) := by decide

theorem test_witness_UnknownOpcodeFaults :
    (let s := placed (accMachine 0) 0xFF 0xC000
     s.pc.toNat < memSize s.cfg.arch ∧ s.devices.route s.pc.toNat = none ∧ s.cfg.arch = .acc ∧
       rowOf s.cfg.opmap.acc (BitVec.ofNat 4 ((s.mem.word s.pc.toNat).toNat / 4096)) = none) ∧
    (let s := placed (accMachine 0) 0 0xB007
     s.pc.toNat < memSize s.cfg.arch ∧ s.devices.route s.pc.toNat = none ∧
       s.cfg.arch = .acc ∧ rowOf s.cfg.opmap.acc (BitVec.ofNat 4 ((s.mem.word s.pc.toNat).toNat / 4096)) = some .jumpc ∧
       s.cfg.accHasJumpc = false) ∧
    (let s := placed { State.reset with cfg := noOpcodes } 0 0xE000
     s.pc.toNat < memSize s.cfg.arch ∧ s.devices.route s.pc.toNat = none ∧
       s.cfg.arch = .reg ∧ BitVec.ofNat 4 ((s.mem.word s.pc.toNat).toNat / 4096) ≠ 0xF ∧
       rowOf s.cfg.opmap.primary (BitVec.ofNat 4 ((s.mem.word s.pc.toNat).toNat / 4096)) = none) ∧
    (let s := placed { State.reset with cfg := noOpcodes } 0 0xF005
     s.pc.toNat < memSize s.cfg.arch ∧ s.devices.route s.pc.toNat = none ∧
       s.cfg.arch = .reg ∧ BitVec.ofNat 4 ((s.mem.word s.pc.toNat).toNat / 4096) = 0xF ∧
       rowOf s.cfg.opmap.secondary (BitVec.ofNat 4 (s.mem.word s.pc.toNat).toNat) = none) := by decide

/-- ACC machines with a device at `pc`: no opcode has a row; every opcode is JUMPC, which the machine lacks. -/
theorem test_witness_UnknownOpcodeFaults_device_acc :
    (let s := { deviceMachine with pc := 0x20, cfg := { Config.default .acc with
       opmap := { OpMap.standard with acc := Vector.replicate 16 none } } }
     s.pc.toNat < memSize s.cfg.arch ∧ s.devices.route s.pc.toNat = some (7, ⟨1, 2⟩) ∧ s.cfg.arch = .acc ∧
       ∀ op, rowOf s.cfg.opmap.acc op = none) ∧
    (let s := { deviceMachine with pc := 0x20, cfg := { Config.default .acc with
       opmap := { OpMap.standard with acc := Vector.replicate 16 (some .jumpc) } } }
     s.pc.toNat < memSize s.cfg.arch ∧ s.devices.route s.pc.toNat = some (7, ⟨1, 2⟩) ∧ s.cfg.arch = .acc ∧
       (∀ op, rowOf s.cfg.opmap.acc op = some .jumpc) ∧ s.cfg.accHasJumpc = false) := by decide

/-- A REG machine with a device at `pc` and no opcodes: whatever the word, one of the two REG clauses applies. -/
theorem test_witness_UnknownOpcodeFaults_device_reg :
    let s := { deviceMachine with pc := 0x20, cfg := noOpcodes }
    let op := BitVec.ofNat 4 ((Config.deviceWord s.draws).toNat / 4096)
    let sop := BitVec.ofNat 4 (Config.deviceWord s.draws).toNat
    s.pc.toNat < memSize s.cfg.arch ∧ s.devices.route s.pc.toNat = some (7, ⟨1, 2⟩) ∧ s.cfg.arch = .reg ∧
      (op ≠ 0xF ∧ rowOf s.cfg.opmap.primary op = none ∨ op = 0xF ∧ rowOf s.cfg.opmap.secondary sop = none) := by
  have primary : ∀ op, rowOf noOpcodes.opmap.primary op = none := by decide
  have secondary : ∀ op, rowOf noOpcodes.opmap.secondary op = none := by decide
  exact ⟨by decide, by decide, rfl, (ne_or_eq _ _).imp (⟨·, primary _⟩) (⟨·, secondary _⟩)⟩

theorem test_witness_SelfJumpBothSettings :
    (let s := placed State.reset 0xFFF 0x8FFF
     s.pc.toNat < memSize s.cfg.arch ∧ s.devices.route s.pc.toNat = none ∧
       decode s.cfg (s.mem.word s.pc.toNat) = .ok (.regJumpu 0xFFF) ∧ jumpuTarget (.regJumpu 0xFFF) = some s.pc) ∧
    (let s := placed (accMachine 0) 0xFF 0x8FFF
     s.pc.toNat < memSize s.cfg.arch ∧ s.devices.route s.pc.toNat = none ∧
       decode s.cfg (s.mem.word s.pc.toNat) = .ok (.accJumpu 0xFF) ∧ jumpuTarget (.accJumpu 0xFF) = some s.pc) := by decide

theorem test_witness_HaltedExactlyOnSelfJump :
    (∃ t, step (placed State.reset 0xFFF 0x8FFF) = .next t ∧ t.report = .halted) ∧
    ∃ t, step (placed State.reset 0xFFE 0x8FFF) = .next t ∧ t.report = .ok :=
  ⟨⟨_, rfl, by decide⟩, ⟨_, rfl, by decide⟩⟩

theorem test_witness_HaltedIsRepeated :
    let s := placed (accMachine 0x1234) 5 0x8005
    s.devices.route s.pc.toNat = none ∧ ∃ t, step s = .next t ∧ t.report = .halted :=
  ⟨by decide, ⟨_, rfl, by decide⟩⟩

theorem test_witness_InvariantAtReset : { Config.default .reg with resetPc := 0x1000 }.resetPc.toNat ≤ memSize .reg ∧
    { Config.default .acc with resetPc := 0x0100 }.resetPc.toNat ≤ memSize .acc := by decide

theorem test_witness_StepKeepsInvariant : stateOk deviceMachine ∧ (∃ t, step deviceMachine = .next t) ∧
    stateOk { deviceMachine with pc := 0x1000 } ∧ ∃ f, step { deviceMachine with pc := 0x1000 } = .fault f := by
  refine ⟨⟨⟨by decide, by decide⟩, deviceMachine_devicesOk, ?_⟩, ⟨_, rfl⟩,
    ⟨⟨by decide, by decide⟩, deviceMachine_devicesOk, ?_⟩, ⟨_, rfl⟩⟩
  · show (0 : Nat) ≤ 4096; decide
  · show (0x1000 : Nat) ≤ 4096; decide

theorem test_witness_HighRegistersUnreachable :
    (∀ j : RegIdx, j.val < 4 → (#v[1, 2, 3, 4, 9, 9, 9, 9] : Vector Word 8)[j.val] = (regMachine 1 2 3 4).reg j) ∧
    (∃ t, step (placed (regMachine 1 2 3 4) 0 0xFF05) = .next t) ∧
    (∃ f, step (placed (regMachine 1 2 3 4) 0 0xF00F) = .fault f) ∧
    decode (Config.default .reg) 0xFF05 = .ok (.regAdd 3 3) :=
  ⟨by decide, ⟨_, rfl⟩, ⟨_, rfl⟩, by decide⟩

theorem test_witness_VariantsKeepApart :
    (∃ t, step (placed (regMachine 1 2 3 4) 0 0xF005) = .next t ∧ (regMachine 1 2 3 4).cfg.arch = .reg) ∧
    ∃ t, step (placed (accMachine 1) 0 0x1001) = .next t ∧ (accMachine 1).cfg.arch = .acc :=
  ⟨⟨_, rfl, rfl⟩, ⟨_, rfl, rfl⟩⟩

theorem test_witness_PcUpdateByIncFlag :
    (∃ t, exec (.regAdd 0 1) { State.reset with pc := 0xFFFF } = .next t ∧ instrInc (.regAdd 0 1) = true ∧ t.pc = 0) ∧
    (∃ t, exec (.accJumpu 0xFF) (accMachine 0) = .next t ∧ instrInc (.accJumpu 0xFF) = false ∧
      jumpTaken (accMachine 0).flags (.accJumpu 0xFF) = true ∧ t.pc = 0xFF) ∧
    (∃ t, exec (.regJumpnz 0xFFF) State.reset = .next t ∧ instrInc (.regJumpnz 0xFFF) = false ∧
      jumpTaken State.reset.flags (.regJumpnz 0xFFF) = true ∧ t.pc = 0xFFF) ∧
    ∃ t, exec (.regJumpz 0xFFF) State.reset = .next t ∧ instrInc (.regJumpz 0xFFF) = false ∧
      jumpTaken State.reset.flags (.regJumpz 0xFFF) = false ∧ t.pc = 1 :=
  ⟨⟨_, rfl, rfl, by decide⟩, ⟨_, rfl, rfl, rfl, by decide⟩, ⟨_, rfl, rfl, rfl, by decide⟩, ⟨_, rfl, rfl, rfl, by decide⟩⟩

theorem test_witness_FlagsWrittenOnlyByAlu :
    (∃ t, exec (.regLoad 0xFFF) State.reset = .next t ∧ usesAlu (.regLoad 0xFFF) = false) ∧
    ∃ t, exec (.regAddm 0xFFF) State.reset = .next t ∧ usesAlu (.regAddm 0xFFF) = true :=
  ⟨⟨_, rfl, rfl⟩, ⟨_, rfl, rfl⟩⟩

theorem test_witness_StepAccesses :
    (∃ t, step (placed State.reset 0 0x4FFF) = .next t ∧ dataAccess (.regLoad 0xFFF) = some .read) ∧
    (∃ t, step (placed State.reset 0 0x5001) = .next t ∧ dataAccess (.regStore 1) = some .write) ∧
    ∃ t, step (placed State.reset 0 0xF005) = .next t ∧ dataAccess (.regAdd 0 0) = none :=
  ⟨⟨_, rfl, rfl⟩, ⟨_, rfl, rfl⟩, ⟨_, rfl, rfl⟩⟩

theorem test_witness_FaultChangesOnlyIr :
    (∃ f, step { State.reset with pc := 0x1000 } = .fault f) ∧
    (∃ f, step (placed (accMachine 1) 0xFF 0xC000) = .fault f) ∧
    ∃ f, step (placed (regMachine 0 0x1000 0 0) 0xFFF 0xF101) = .fault f :=
  ⟨⟨_, rfl⟩, ⟨_, rfl⟩, ⟨_, rfl⟩⟩

end Sys2Proof.Tests
end

section
/-! SUPPORT. Every word the decoder accepts, read as an instruction of the machine's variant (30_encoding.md R80 to R87). -/

namespace Sys2Proof

/-- A 2-bit field names registers 0 to 3 only (R28). -/
@[simp] theorem regIndex_nameable (f : BitVec 2) : RegIdx.nameable (regIndex f) = true :=
  decide_eq_true f.isLt

@[simp] theorem rdField_nameable (w : Word) : RegIdx.nameable (rdField w) = true := regIndex_nameable _

@[simp] theorem rsField_nameable (w : Word) : RegIdx.nameable (rsField w) = true := regIndex_nameable _

@[simp] theorem accInstr_arch (op : AccOp) (w : Word) : (accInstr op w).arch = .acc := by
  cases op <;> rfl

@[simp] theorem accInstr_wellFormed (op : AccOp) (w : Word) : (accInstr op w).wellFormed = true := by
  cases op <;> rfl

@[simp] theorem regInstr_arch (op : RegOp) (w : Word) : (regInstr op w).arch = .reg := by
  cases op <;> rfl

@[simp] theorem regInstr_wellFormed (op : RegOp) (w : Word) : (regInstr op w).wellFormed = true := by
  cases op <;> simp [regInstr, Instr.wellFormed]

variable {cfg : Config} {w : Word} {i : Instr}

/-- An ACC word that decodes has a row, which cuts its fields. -/
theorem decodeAcc_ok (h : decodeAcc cfg w = .ok i) :
    ∃ op, accRow cfg (opField w) = some op ∧ i = accInstr op w := by
  unfold decodeAcc at h
  split at h <;> cases h
  next op hop => exact ⟨op, hop, rfl⟩

/-- A REG word that decodes has a row, in the secondary space exactly under the extension value, which cuts its fields. -/
theorem decodeReg_ok (h : decodeReg cfg w = .ok i) :
    ∃ op, i = regInstr op w ∧
      ((opField w = extOpcode ∧ rowOf cfg.opmap.secondary (sopField w) = some op) ∨
        (opField w ≠ extOpcode ∧ rowOf cfg.opmap.primary (opField w) = some op)) := by
  unfold decodeReg at h
  split at h
  next hext =>
    split at h <;> cases h
    next op hop => exact ⟨op, rfl, .inl ⟨hext, hop⟩⟩
  next hext =>
    split at h <;> cases h
    next op hop => exact ⟨op, rfl, .inr ⟨hext, hop⟩⟩

/-- A decoded instruction is cut from the word by a row of the machine's variant. -/
theorem decode_ok (h : decode cfg w = .ok i) :
    (cfg.arch = .acc ∧ ∃ op, i = accInstr op w) ∨ (cfg.arch = .reg ∧ ∃ op, i = regInstr op w) := by
  unfold decode at h
  split at h
  next harch =>
    obtain ⟨op, -, hi⟩ := decodeAcc_ok h
    exact .inl ⟨harch, op, hi⟩
  next harch =>
    obtain ⟨op, hi, -⟩ := decodeReg_ok h
    exact .inr ⟨harch, op, hi⟩

/-- Settles O8: both variants' rows cut instructions of that variant, with register fields of 2 bits. -/
theorem decodedInstructionFitsVariant : Obligations.DecodedInstructionFitsVariant := by
  intro cfg w i h
  obtain ⟨harch, op, rfl⟩ | ⟨harch, op, rfl⟩ := decode_ok h <;> simp [harch]

end Sys2Proof
end

section
/-! SUPPORT. What every execute phase keeps, said once: an instruction that completes leaves the base of the state as it
was, one that faults hands back the state it found, marked, and none refuses (40_cycle.md R119, 60_exceptions.md R248). -/

namespace Sys2Proof.Machine

variable {s t : State}

/-- The result completes with the base of `s` unchanged, or faults with `s` marked; it never refuses. -/
def keepsBase (s : State) : Result → Prop
  | .next t => sameBase s t
  | .fault f => faultLeft f = s.markFaulted
  | .refused _ => False

theorem keepsBase_next (h : sameBase s t) : keepsBase s (.next t) := h

theorem sameBase_of_memRead {kind : AccessKind} {a : Nat} {w : Word} (h : memRead kind a s = .ok (w, t)) :
    sameBase s t := by
  obtain ⟨hcfg, -, hir, -, -, -, -, hdev, hdet, hrep, hflt⟩ := memRead_frame h
  exact ⟨hcfg, hir, hdev, hdet, hrep, hflt⟩

theorem sameBase_of_memWrite {a : Nat} {v : Word} (h : memWrite a v s = .ok t) : sameBase s t := by
  obtain ⟨hcfg, -, hir, -, -, -, -, hdev, hdet, hrep, hflt⟩ := memWrite_frame h
  exact ⟨hcfg, hir, hdev, hdet, hrep, hflt⟩

theorem sameBase_trans {u : State} (h : sameBase s t) (h' : sameBase t u) : sameBase s u := by
  simp_all [sameBase]

theorem sameBase_advance (h : sameBase s t) : sameBase s t.advance := h

theorem withRead_keepsBase (a : Nat) {rest : Word → State → State} (hrest : ∀ w u, sameBase u (rest w u)) :
    keepsBase s (withRead a s rest) := by
  by_cases ha : memSize s.cfg.arch ≤ a
  · rw [withRead_outOfBounds rest ha]; rfl
  · obtain ⟨w, t, ht⟩ := memRead_answers .read (Nat.not_le.mp ha)
    rw [withRead_of_ok ht]
    exact keepsBase_next (sameBase_advance (sameBase_trans (sameBase_of_memRead ht) (hrest w t)))

theorem withWrite_keepsBase (a : Nat) (v : Word) : keepsBase s (withWrite a v s) := by
  by_cases ha : memSize s.cfg.arch ≤ a
  · rw [withWrite_outOfBounds v ha]; rfl
  · obtain ⟨t, ht⟩ := memWrite_answers v (Nat.not_le.mp ha)
    rw [withWrite_of_ok ht]
    exact keepsBase_next (sameBase_advance (sameBase_of_memWrite ht))

theorem jumpIf_keepsBase (c : Bool) (target : Word) : keepsBase s (jumpIf c target s) := by
  cases c <;> exact keepsBase_next (by simp [sameBase])

theorem raise_unimplemented_keepsBase (op : RegOp) : keepsBase s (raise (Fault.unimplemented op) s) := rfl

/-- Every instruction, by the shape of its execute phase: registers and flags only, one read, one write, a jump, or a
stop. -/
theorem exec_keepsBase (i : Instr) (s : State) : keepsBase s (exec i s) := by
  cases i
  case accLoad | accAddm | accSubm | regLoad | regAddm | regSubm | regLoadInd =>
    exact withRead_keepsBase _ fun _ _ => by simp [sameBase]
  case accStore | regStore | regStoreInd => exact withWrite_keepsBase _ _
  case accJumpz | accJumpnz | accJumpc | regJumpz | regJumpnz | regJumpc => exact jumpIf_keepsBase _ _
  case regCall | regXop1 | regXop2 | regXop3 | regXop4 | regXop5 | regRet => exact raise_unimplemented_keepsBase _
  all_goals exact keepsBase_next (by simp [sameBase])

theorem exec_next_sameBase {i : Instr} (h : exec i s = .next t) : sameBase s t := by
  simpa [h, keepsBase] using exec_keepsBase i s

/-- An instruction that faults hands back the state it was given, with the fault marked (R248, log 16). -/
theorem exec_fault_left {i : Instr} {f : Fault} (h : exec i s = .fault f) : faultLeft f = s.markFaulted := by
  simpa [h, keepsBase] using exec_keepsBase i s

end Sys2Proof.Machine
end

section
/-! SUPPORT. The construction parameters under a step and under the host's operations (00_scope.md R2, R21; log 1). -/

namespace Sys2Proof.Machine

variable {s t : State} {f : Fault}

theorem fetch_cfg (h : fetch s = .ok t) : t.cfg = s.cfg := (fetch_frame h).1

theorem exec_next_cfg {i : Instr} (h : exec i s = .next t) : t.cfg = s.cfg := (exec_next_sameBase h).1

theorem exec_fault_cfg {i : Instr} (h : exec i s = .fault f) : (faultLeft f).cfg = s.cfg := by
  rw [exec_fault_left h, State.markFaulted_cfg]

theorem step_next_cfg (h : step s = .next t) : t.cfg = s.cfg := by
  obtain ⟨u, i, hu, -, ⟨-, rfl⟩ | ⟨-, v, hv, rfl⟩⟩ := stepWith_next h
  · simpa using fetch_cfg hu
  · simpa [exec_next_cfg hv] using fetch_cfg hu

theorem step_fault_cfg (h : step s = .fault f) : (faultLeft f).cfg = s.cfg := by
  obtain ⟨-, rfl⟩ | ⟨u, hu, ⟨e, -, rfl⟩ | ⟨i, -, -, hi⟩⟩ := stepWith_fault h
  · rfl
  · simpa [faultLeft] using fetch_cfg hu
  · exact (exec_fault_cfg hi).trans (fetch_cfg hu)

theorem memmap_cfg {id : DeviceId} {addrs : List Nat} {p : HookPair} (h : State.memmap id addrs p s = .next t) :
    t.cfg = s.cfg := by
  unfold State.memmap at h
  split at h <;> cases h
  rfl

theorem unmap_cfg {id : DeviceId} (h : State.unmap id s = .next t) : t.cfg = s.cfg := by
  unfold State.unmap at h
  split at h <;> cases h
  rfl

/-- Settles O43: `cfg` is in the frame of the fetch, of every execute phase and of every host operation, and a fault
hands back a state that differs from an earlier one in the marks only. -/
theorem parametersNeverChange : Obligations.ParametersNeverChange := by
  refine ⟨fun _ _ => rfl, fun s => ?_⟩
  exact ⟨fun _ => step_next_cfg, fun _ => step_fault_cfg, fun _ _ => exec_next_cfg, fun _ _ => exec_fault_cfg,
    fun _ _ _ _ => memmap_cfg, fun _ _ => unmap_cfg, fun _ _ h => (hostSet_frame h).1,
    fun _ _ h => congrArg State.cfg (hostSet_fault h), fun _ _ _ h => (hostGet_frame h).1,
    fun _ _ h => congrArg State.cfg (hostGet_fault h), fun _ => rfl⟩

end Sys2Proof.Machine
end

section
/-! SUPPORT. The memory controller in the terms of Safety.lean, and the host's accesses element by element
(20_memory.md R53, R54; 70_reset_and_hazards.md R284). -/

namespace Sys2Proof.Machine

variable {s t : State} {a k : Nat} {v w : Word}

theorem reg_eq_of_x (h : t.x = s.x) (j : RegIdx) : t.reg j = s.reg j := by simp [State.reg, h]

/-- A read that answers gives the word and leaves the access as R53 and R74 say. -/
theorem readGives_of_memRead {kind : AccessKind} (h : memRead kind a s = .ok (w, t)) : readGives kind s a w t := by
  obtain ⟨-, ⟨hr, rfl, rfl⟩ | ⟨id, p, hr, rfl, rfl⟩⟩ := memRead_ok h
  · exact ⟨rfl, fun _ => ⟨rfl, rfl, rfl⟩, fun _ _ h => by simp [hr] at h⟩
  · refine ⟨rfl, fun h => by simp [hr] at h, fun id' p' h => ?_⟩
    obtain ⟨rfl, rfl⟩ : id = id' ∧ p = p' := by simpa [hr] using h
    exact ⟨rfl, rfl, rfl⟩

/-- A write that answers leaves the access as R54, R61 and R74 say. -/
theorem writeGives_of_memWrite (h : memWrite a v s = .ok t) : writeGives s a v t := by
  obtain ⟨-, ⟨hr, rfl⟩ | ⟨id, p, hr, rfl⟩⟩ := memWrite_ok h
  · exact ⟨rfl, fun _ => ⟨fun b => by simp [Memory.word_setWord], rfl⟩, fun _ _ h => by simp [hr] at h⟩
  · refine ⟨rfl, fun h => by simp [hr] at h, fun id' p' h => ?_⟩
    obtain ⟨rfl, rfl⟩ : id = id' ∧ p = p' := by simpa [hr] using h
    exact ⟨rfl, rfl⟩

theorem hostSet_acc (v : Word) (h : s.cfg.arch = .acc) : hostSet (.acc v) s = .next (s.setAcc v) := by
  simp [hostSet, h]

theorem hostGet_acc (h : s.cfg.arch = .acc) : hostGet .acc s = .value (.word s.acc) s := by
  simp [hostGet, h]

theorem hostSet_reg (i : RegIdx) (v : Word) (h : s.cfg.arch = .reg) :
    hostSet (.reg i.val v) s = .next (s.setReg i v) := by
  simp [hostSet, h]

theorem hostGet_reg (i : RegIdx) (h : s.cfg.arch = .reg) : hostGet (.reg i.val) s = .value (.word (s.reg i)) s := by
  simp [hostGet, h]

theorem hostSet_reg_outOfRange (v : Word) (hk : 8 ≤ k) (h : s.cfg.arch = .reg) :
    hostSet (.reg k v) s = .fault (.registerIndex k s) := by
  simp [hostSet, h, Nat.not_lt.mpr hk]

theorem hostGet_reg_outOfRange (hk : 8 ≤ k) (h : s.cfg.arch = .reg) :
    hostGet (.reg k) s = .fault (.registerIndex k s) := by
  simp [hostGet, h, Nat.not_lt.mpr hk]

theorem hostSet_mem_of_ok (h : memWrite a v s = .ok t) : hostSet (.mem a v) s = .next t := by
  simp [hostSet, h]

theorem hostGet_mem_of_ok (h : memRead .read a s = .ok (w, t)) : hostGet (.mem a) s = .value (.word w) t := by
  simp [hostGet, h]

theorem hostSet_mem_outOfBounds (v : Word) (h : memSize s.cfg.arch ≤ a) :
    hostSet (.mem a v) s = .fault (.bounds a s) := by
  simp [hostSet, memWrite_outOfBounds v h]

theorem hostGet_mem_outOfBounds (h : memSize s.cfg.arch ≤ a) : hostGet (.mem a) s = .fault (.bounds a s) := by
  simp [hostGet, memRead_outOfBounds _ h]

/-- A register write changes that register only. -/
theorem setReg_sameRegsBut (i : RegIdx) (v : Word) (s : State) : sameRegsBut i s (s.setReg i v) :=
  ⟨rfl, fun _ hj => State.setReg_reg_ne s hj v⟩

/-- A host write of memory goes through the router and touches nothing but what it reaches (R54). -/
theorem hostSet_mem_writeGives (v : Word) (ha : a < memSize s.cfg.arch) :
    ∃ t, hostSet (.mem a v) s = .next t ∧ writeGives s a v t ∧ t.pc = s.pc ∧ t.flags = s.flags ∧ sameRegs s t ∧
      sameBase s t := by
  obtain ⟨t, ht⟩ := memWrite_answers v ha
  obtain ⟨-, hpc, -, hacc, hx, hflags, -⟩ := memWrite_frame ht
  exact ⟨t, hostSet_mem_of_ok ht, writeGives_of_memWrite ht, hpc, hflags, ⟨hacc, reg_eq_of_x hx⟩, sameBase_of_memWrite ht⟩

/-- A host read of memory goes through the router and touches nothing but what it reaches (R53). -/
theorem hostGet_mem_readGives (ha : a < memSize s.cfg.arch) :
    ∃ w t, hostGet (.mem a) s = .value (.word w) t ∧ readGives .read s a w t ∧ t.pc = s.pc ∧ t.flags = s.flags ∧
      sameRegs s t ∧ sameBase s t := by
  obtain ⟨w, t, ht⟩ := memRead_answers .read ha
  obtain ⟨-, hpc, -, hacc, hx, hflags, -⟩ := memRead_frame ht
  exact ⟨w, t, hostGet_mem_of_ok ht, readGives_of_memRead ht, hpc, hflags, ⟨hacc, reg_eq_of_x hx⟩, sameBase_of_memRead ht⟩

/-- Settles O45, element by element: a plain field update, a register within and past the file, and memory through the
router within and past its bound. -/
theorem hostAccesses : Obligations.HostAccesses := by
  intro s v f
  refine ⟨⟨rfl, rfl⟩, ⟨rfl, rfl⟩, ⟨rfl, rfl⟩, rfl, fun h => ?acc, fun i h => ?reg, fun k hk h => ?regOut,
    fun a ha => ?mem, fun a ha => ?memOut⟩
  case acc => exact ⟨hostSet_acc v h, hostGet_acc h⟩
  case reg =>
    exact ⟨⟨s.setReg i v, hostSet_reg i v h, State.setReg_reg_self s i v, setReg_sameRegsBut i v s, rfl⟩,
      hostGet_reg i h⟩
  case regOut => exact ⟨hostSet_reg_outOfRange v hk h, hostGet_reg_outOfRange hk h⟩
  case mem => exact ⟨hostSet_mem_writeGives v ha, hostGet_mem_readGives ha⟩
  case memOut => exact ⟨hostSet_mem_outOfBounds v ha, hostGet_mem_outOfBounds ha⟩

end Sys2Proof.Machine
end

section
/-! SUPPORT. What an instruction that completes can change, said once for all 43 (40_cycle.md R114, R119): the flags, the
accumulator, the registers, at most one word of memory, and `pc`; and the state a faulting step hands back. -/

namespace Sys2Proof.Machine

variable {s t u : State} {i : Instr}

/-- The changes an execute phase of `i` from `s` to `t` may make: the flags by ALU instructions only (R32), `acc` and `x`
in their own variant only (R25, R27), one in-bounds word of memory (R54), and `pc` to the next word or to the target the
instruction carries (R114, R115). -/
structure ExecFrame (i : Instr) (s t : State) : Prop where
  flags : usesAlu i = false → t.flags = s.flags
  acc : i.arch = .reg → t.acc = s.acc
  x : i.arch = .acc → t.x = s.x
  mem : t.mem = s.mem ∨ ∃ a v, a < memSize s.cfg.arch ∧ t.mem = s.mem.setWord a v
  pc : t.pc = s.pc + 1 ∨ ∃ a, jumpTarget i = some a ∧ t.pc.toNat = a

/-- The draws and the history are outside the frame, so a read may come first. -/
theorem ExecFrame.of_memRead {kind : AccessKind} {a : Nat} {w : Word} (h : memRead kind a s = .ok (w, u))
    (hf : ExecFrame i u t) : ExecFrame i s t := by
  obtain ⟨hcfg, hpc, -, hacc, hx, hflags, hmem, -⟩ := memRead_frame h
  exact ⟨hflags ▸ hf.flags, hacc ▸ hf.acc, hx ▸ hf.x, hcfg ▸ hmem ▸ hf.mem, hpc ▸ hf.pc⟩

theorem ExecFrame.of_memWrite {a : Nat} {v : Word} (h : memWrite a v s = .ok t) : ExecFrame i s t.advance := by
  obtain ⟨-, hpc, -, hacc, hx, hflags, -⟩ := memWrite_frame h
  refine ⟨fun _ => hflags, fun _ => hacc, fun _ => hx, ?mem, .inl (by simp [hpc])⟩
  obtain ⟨ha, ⟨-, rfl⟩ | ⟨_, _, -, rfl⟩⟩ := memWrite_ok h
  · exact .inr ⟨a, v, ha, rfl⟩
  · exact .inl rfl

theorem ExecFrame.of_jumpIf {c : Bool} {target : Word} (hj : jumpTarget i = some target.toNat)
    (h : jumpIf c target s = .next t) : ExecFrame i s t := by
  obtain ⟨-, rfl⟩ | ⟨-, rfl⟩ := jumpIf_next h
  · exact ⟨fun _ => rfl, fun _ => rfl, fun _ => rfl, .inl rfl, .inr ⟨_, hj, rfl⟩⟩
  · exact ⟨fun _ => rfl, fun _ => rfl, fun _ => rfl, .inl rfl, .inl rfl⟩

theorem zext16_toNat {n : Nat} (v : BitVec n) (hn : n ≤ 16) : (zext16 v).toNat = v.toNat :=
  BitVec.toNat_setWidth_of_le hn

/-- Every instruction that completes, by the shape of its execute phase: one read, one write, a jump, a stop, or
registers and flags only. -/
theorem exec_next_frame (h : exec i s = .next t) : ExecFrame i s t := by
  cases i
  case accLoad | accAddm | accSubm | regLoad | regAddm | regSubm | regLoadInd =>
    obtain ⟨w, u, hu, rfl⟩ := withRead_next h
    exact .of_memRead hu (by constructor <;> simp [usesAlu, Instr.arch])
  case accStore | regStore | regStoreInd =>
    obtain ⟨u, hu, rfl⟩ := withWrite_next h
    exact .of_memWrite hu
  case accJumpz a | accJumpnz a | accJumpc a | regJumpz a | regJumpnz a | regJumpc a =>
    exact .of_jumpIf (by rw [zext16_toNat a (by decide)]; rfl) h
  case accJumpu a | regJumpu a =>
    exact .of_jumpIf (c := true) (by rw [zext16_toNat a (by decide)]; rfl) h
  case regCall | regXop1 | regXop2 | regXop3 | regXop4 | regXop5 | regRet => cases h
  all_goals
    cases h
    constructor <;> simp [usesAlu, Instr.arch]

/-- Every faulting step hands back a state it found, at its start or after the fetch, with the fault marked (R248). -/
theorem step_fault_left {f : Fault} (h : step s = .fault f) :
    ∃ u, faultLeft f = u.markFaulted ∧ (u = s ∨ fetch s = .ok u) := by
  obtain ⟨-, rfl⟩ | ⟨u, hu, ⟨e, -, rfl⟩ | ⟨i, -, -, hi⟩⟩ := stepWith_fault h
  · exact ⟨s, rfl, .inl rfl⟩
  · exact ⟨u, rfl, .inr hu⟩
  · exact ⟨u, exec_fault_left hi, .inr hu⟩

end Sys2Proof.Machine
end

section
/-! SUPPORT. The invariant of the machine at reset, after construction and under every step (10_state.md R23, R33, R34,
R37; 70_reset_and_hazards.md R270, R272). -/

namespace Sys2Proof.Machine

variable {s t : State} {i : Instr} {f : Fault}

/-- The invariant looks at the parameters, `pc`, memory and the mapping table only. -/
theorem stateOk_of_frame (hcfg : t.cfg = s.cfg) (hpc : t.pc = s.pc) (hmem : t.mem = s.mem)
    (hdev : t.devices = s.devices) (h : stateOk s) : stateOk t := by
  simpa [stateOk, memoryOk, devicesOk, pcOk, hcfg, hpc, hmem, hdev] using h

@[simp] theorem stateOk_setReport (r : Report) : stateOk (s.setReport r) ↔ stateOk s := Iff.rfl

@[simp] theorem stateOk_markFaulted : stateOk s.markFaulted ↔ stateOk s := Iff.rfl

theorem fetch_stateOk (h : fetch s = .ok t) (hs : stateOk s) : stateOk t := by
  obtain ⟨hcfg, hpc, -, -, -, hmem, hdev, -⟩ := fetch_frame h
  exact stateOk_of_frame hcfg hpc hmem hdev hs

/-- A fetch that answers came from an address in bounds, which leaves room for one increment of `pc` (R23). -/
theorem fetch_pc_lt (h : fetch s = .ok t) : t.pc.toNat < memSize t.cfg.arch := by
  obtain ⟨w, u, hu, rfl⟩ := fetch_ok h
  obtain ⟨hcfg, hpc, -⟩ := memRead_frame hu
  simpa [hcfg, hpc] using (memRead_ok hu).1

/-- A jump's target field is as wide as its variant's address space (R83, R86). -/
theorem jumpTarget_lt {a : Nat} (h : jumpTarget i = some a) : a < memSize i.arch := by
  cases i <;> cases h <;> exact BitVec.isLt _

theorem exec_memoryOk (h : exec i s = .next t) (hs : memoryOk s) : memoryOk t := by
  obtain ⟨hwf, hbelow⟩ := hs
  rw [memoryOk, exec_next_cfg h]
  obtain hmem | ⟨a, v, ha, hmem⟩ := (exec_next_frame h).mem
  · rw [hmem]; exact ⟨hwf, hbelow⟩
  · rw [hmem]; exact ⟨Memory.wf_setWord hwf a v, Memory.below_setWord hbelow ha v⟩

/-- From a fetched address an instruction of the machine's own variant leaves `pc` at most MEMSIZE (R23). -/
theorem exec_pcOk (h : exec i s = .next t) (harch : i.arch = s.cfg.arch) (hpc : s.pc.toNat < memSize s.cfg.arch) :
    pcOk t := by
  rw [pcOk, exec_next_cfg h]
  obtain hnext | ⟨a, hj, ha⟩ := (exec_next_frame h).pc
  · rw [hnext, BitVec.toNat_add]
    exact (Nat.mod_le _ _).trans hpc
  · rw [ha, ← harch]
    exact (jumpTarget_lt hj).le

theorem exec_stateOk (h : exec i s = .next t) (harch : i.arch = s.cfg.arch) (hpc : s.pc.toNat < memSize s.cfg.arch)
    (hs : stateOk s) : stateOk t := by
  obtain ⟨hmem, hdev, -⟩ := hs
  obtain ⟨hcfg, -, hdevices, -⟩ := exec_next_sameBase h
  exact ⟨exec_memoryOk h hmem, by simpa [devicesOk, hcfg, hdevices] using hdev, exec_pcOk h harch hpc⟩

theorem step_next_stateOk (h : step s = .next t) (hs : stateOk s) : stateOk t := by
  obtain ⟨u, i, hu, hi, ⟨-, rfl⟩ | ⟨-, v, hv, rfl⟩⟩ := stepWith_next h
  · exact (stateOk_setReport _).mpr (fetch_stateOk hu hs)
  · obtain ⟨harch, -⟩ := decodedInstructionFitsVariant _ _ _ hi
    exact (stateOk_setReport _).mpr <| exec_stateOk hv harch (fetch_pc_lt hu) (fetch_stateOk hu hs)

theorem step_fault_stateOk (h : step s = .fault f) (hs : stateOk s) : stateOk (faultLeft f) := by
  obtain ⟨u, hleft, rfl | hu⟩ := step_fault_left h <;> rw [hleft, stateOk_markFaulted]
  · exact hs
  · exact fetch_stateOk hu hs

/-- Settles O53: only a write changes memory, within its bound; `pc` moves from an address in bounds to the next one or to
a target as wide as the address space; the mapping table is in every frame. -/
theorem stepKeepsInvariant : Obligations.StepKeepsInvariant :=
  fun _ hs => ⟨fun _ h => step_next_stateOk h hs, fun _ h => step_fault_stateOk h hs⟩

theorem loadFrom_below {n : Nat} {m : Memory} (h : m.below (2 * n) = true) {a : Nat} {ws : List Word}
    (hlen : a + ws.length ≤ n) : (loadFrom m a ws).below (2 * n) = true := by
  induction ws generalizing m a with
  | nil => exact h
  | cons w ws ih =>
    rw [List.length_cons] at hlen
    exact ih (Memory.below_setWord h (by omega) w) (by omega)

/-- The image is cut to MEMSIZE, so it lands within the backing array (R272). -/
theorem construct_memoryOk (cfg : Config) (image : List Word) : memoryOk (State.construct cfg image) :=
  ⟨loadFrom_wf rfl 0 _, loadFrom_below rfl (by simp [State.construct, State.resetWith])⟩

theorem resetWith_devicesOk (cfg : Config) : devicesOk (State.resetWith cfg) :=
  ⟨rfl, rfl, fun _ _ h => by cases h⟩

theorem construct_stateOk {cfg : Config} (h : cfg.resetPc.toNat ≤ memSize cfg.arch) (image : List Word) :
    stateOk (State.construct cfg image) :=
  ⟨construct_memoryOk cfg image, resetWith_devicesOk cfg, h⟩

/-- Settles O52: reset is the construction with an empty image. -/
theorem invariantAtReset : Obligations.InvariantAtReset :=
  ⟨construct_stateOk (cfg := Config.default .reg) (Nat.zero_le _) [],
    fun cfg image => ⟨construct_memoryOk cfg image, fun h => construct_stateOk h image⟩⟩

theorem reset_reg (j : RegIdx) : State.reset.reg j = 0 := by
  fin_cases j <;> rfl

/-- Settles O42: every value is the reset value of its field. -/
theorem resetValues : Obligations.ResetValues :=
  ⟨rfl, rfl, rfl, rfl, reset_reg, rfl, Memory.word_nil, fun _ => rfl, rfl, rfl, fun _ _ => rfl⟩

end Sys2Proof.Machine
end

section
/-! SUPPORT. What a step leaves alone: the mapping table, the host's input, the other variant's registers; and a fetch
past memory (10_state.md R20, R25, R34; 40_cycle.md R112, R117). -/

namespace Sys2Proof.Machine

variable {s t : State} {f : Fault}

theorem step_next_mapping (h : step s = .next t) :
    t.devices = s.devices ∧ t.detectHalt = s.detectHalt ∧ t.faulted = s.faulted := by
  obtain ⟨u, i, hu, -, hend⟩ := stepWith_next h
  obtain ⟨-, -, -, -, -, -, hdev, hdet, -, hflt⟩ := fetch_frame hu
  obtain ⟨-, rfl⟩ | ⟨-, v, hv, rfl⟩ := hend
  · exact ⟨hdev, hdet, hflt⟩
  · obtain ⟨-, -, hdev', hdet', -, hflt'⟩ := exec_next_sameBase hv
    exact ⟨hdev'.trans hdev, hdet'.trans hdet, hflt'.trans hflt⟩

theorem step_fault_mapping (h : step s = .fault f) :
    (faultLeft f).devices = s.devices ∧ (faultLeft f).detectHalt = s.detectHalt ∧ (faultLeft f).faulted = true := by
  obtain ⟨u, hleft, rfl | hu⟩ := step_fault_left h <;> rw [hleft]
  · exact ⟨rfl, rfl, rfl⟩
  · obtain ⟨-, -, -, -, -, -, hdev, hdet, -⟩ := fetch_frame hu
    exact ⟨hdev, hdet, rfl⟩

/-- Settles O44: the mapping table is in the frame of every step, every execute phase and every host access. -/
theorem stepKeepsMapping : Obligations.StepKeepsMapping := by
  refine fun s => ⟨fun _ => step_next_mapping, fun _ => step_fault_mapping, fun _ _ h => ?exec,
    fun _ _ h => ?hostSet, fun _ _ h => congrArg State.devices (hostSet_fault h), fun _ _ _ h => ?hostGet,
    fun _ _ h => congrArg State.devices (hostGet_fault h), fun _ => rfl⟩
  case exec =>
    obtain ⟨-, -, hdev, -⟩ := exec_next_sameBase h
    exact hdev
  case hostSet =>
    obtain ⟨-, hdev, -⟩ := hostSet_frame h
    exact hdev
  case hostGet =>
    obtain ⟨-, -, -, -, -, -, -, hdev, -⟩ := hostGet_frame h
    exact hdev

/-- Settles O55: a decoded instruction belongs to the machine's variant, and its frame holds the other variant's
registers. -/
theorem variantsKeepApart : Obligations.VariantsKeepApart := by
  intro s t h
  obtain ⟨u, i, hu, hi, hend⟩ := stepWith_next h
  obtain ⟨hcfg, -, hacc, hx, -⟩ := fetch_frame hu
  obtain ⟨-, rfl⟩ | ⟨-, v, hv, rfl⟩ := hend
  · exact ⟨fun _ => hacc, fun _ => hx⟩
  · obtain ⟨harch, -⟩ := decodedInstructionFitsVariant _ _ _ hi
    rw [hcfg] at harch
    exact ⟨fun hs => ((exec_next_frame hv).acc (harch.trans hs)).trans hacc,
      fun hs => ((exec_next_frame hv).x (harch.trans hs)).trans hx⟩

/-- Settles O47: the bounds check comes before the fetch changes anything. -/
theorem fetchOutOfBoundsFaults : Obligations.FetchOutOfBoundsFaults := by
  intro s h
  rw [step_eq, stepWith, fetch_outOfBounds h]
  rfl

end Sys2Proof.Machine
end

section
/-! SUPPORT. The flags: how they read a result, and which instructions write them (10_state.md R31, R32; 41_alu.md R136). -/

namespace Sys2Proof.Machine

variable {s t : State} {a : Nat} {w : Word}

/-- Settles O13, by the result's sign and whether it is zero. -/
theorem flagsPartitionResults : Obligations.FlagsPartitionResults := by
  refine fun n o => ⟨?_, by simp [flagsOf], fun _ => ⟨rfl, rfl⟩⟩
  cases hneg : o.r.msb with
  | true => exact .inr (.inl (by simp [flagsOf, hneg]))
  | false =>
    by_cases hzero : o.r = 0#n
    · exact .inl (by simp [flagsOf, hzero])
    · exact .inr (.inr (by simp [flagsOf, hneg, hzero]))

/-- A read does not look at the flags. -/
theorem memRead_setFlags {kind : AccessKind} (h : memRead kind a s = .ok (w, t)) (f : Flags) :
    memRead kind a (s.setFlags f) = .ok (w, t.setFlags f) := by
  obtain ⟨ha, ⟨hr, rfl, rfl⟩ | ⟨id, p, hr, rfl, rfl⟩⟩ := memRead_ok h
  · exact memRead_backing (s := s.setFlags f) kind ha hr
  · exact memRead_device (s := s.setFlags f) kind ha hr

/-- A read phase whose rest overwrites the flags does not depend on what they were. -/
theorem withRead_setFlags {rest : Word → State → State} (hrest : ∀ w u f, rest w (State.setFlags u f) = rest w u)
    (h : withRead a s rest = .next t) (f : Flags) : withRead a (s.setFlags f) rest = .next t := by
  obtain ⟨w, u, hu, rfl⟩ := withRead_next h
  rw [withRead_of_ok (memRead_setFlags hu f), hrest]

/-- No ALU instruction reads the flags, and each writes all five (R136). -/
theorem exec_setFlags_of_usesAlu {i : Instr} (hi : usesAlu i = true) (h : exec i s = .next t) (f : Flags) :
    exec i (s.setFlags f) = .next t := by
  cases i
  case accAddm | accSubm | regAddm | regSubm => exact withRead_setFlags (fun _ _ _ => rfl) h f
  all_goals cases hi <;> exact h

/-- Settles O57: the flags are in the frame of every other instruction, and an ALU instruction overwrites them unread. -/
theorem flagsWrittenOnlyByAlu : Obligations.FlagsWrittenOnlyByAlu :=
  fun _ _ _ h => ⟨(exec_next_frame h).flags, fun hi f => exec_setFlags_of_usesAlu hi h f⟩

end Sys2Proof.Machine
end

section
/-! SUPPORT. Two machines that differ in `x[4..7]` at most, side by side (10_state.md R28): every operation of the model
keeps them so, since an instruction names registers 0 to 3 only (30_encoding.md R85, R87). -/

namespace Sys2Proof.Machine

variable {p p' : Vector Word 8} {s t t' : State} {a a' : Nat} {v v' w : Word}

/-- `t'` is `t` but for its high registers, which each of the two holds as the register files `p` and `p'` had them. -/
structure HighTwins (p p' : Vector Word 8) (t t' : State) : Prop where
  rest : t' = { t with x := t'.x }
  low : ∀ j : RegIdx, j.val < 4 → t'.reg j = t.reg j
  high : ∀ j : RegIdx, 4 ≤ j.val → t'.reg j = p'[j.val] ∧ t.reg j = p[j.val]

/-- Two outcomes of one kind: next states that are twins, or the same fault from states whose register files are `p` and
`p'`. -/
def TwinOutcomes (p p' : Vector Word 8) : Result → Result → Prop
  | .next t, .next t' => HighTwins p p' t t'
  | .fault f, .fault f' => (faultLeft f).x = p ∧ f' = faultWithLeft { faultLeft f with x := p' } f
  | _, _ => False

theorem twinOutcomes_next (h : HighTwins p p' t t') : TwinOutcomes p p' (.next t) (.next t') := h

theorem twinOutcomes_next_left {r : Result} (h : TwinOutcomes p p' (.next t) r) :
    ∃ t', r = .next t' ∧ HighTwins p p' t t' := by
  cases r with
  | next t' => exact ⟨t', rfl, h⟩
  | fault f => exact h.elim
  | refused q => exact h.elim

theorem twinOutcomes_fault_left {f : Fault} {r : Result} (h : TwinOutcomes p p' (.fault f) r) :
    (faultLeft f).x = p ∧ r = .fault (faultWithLeft { faultLeft f with x := p' } f) := by
  cases r with
  | next t' => exact h.elim
  | fault f' => exact ⟨h.1, congrArg _ h.2⟩
  | refused q => exact h.elim

theorem fetch_of_memRead (h : memRead .fetch s.pc.toNat s = .ok (w, t)) : fetch s = .ok (t.setIr w) := by
  simp [fetch, h]

namespace HighTwins

theorem reg (h : HighTwins p p' t t') {j : RegIdx} (hj : RegIdx.nameable j = true) : t'.reg j = t.reg j :=
  h.low j (of_decide_eq_true hj)

theorem cfg (h : HighTwins p p' t t') : t'.cfg = t.cfg := by rw [h.rest]
theorem pc (h : HighTwins p p' t t') : t'.pc = t.pc := by rw [h.rest]
theorem ir (h : HighTwins p p' t t') : t'.ir = t.ir := by rw [h.rest]
theorem acc (h : HighTwins p p' t t') : t'.acc = t.acc := by rw [h.rest]
theorem detectHalt (h : HighTwins p p' t t') : t'.detectHalt = t.detectHalt := by rw [h.rest]
theorem flags (h : HighTwins p p' t t') : t'.flags = t.flags := by rw [h.rest]

/-- The same update of both, of anything but the registers. -/
theorem map (h : HighTwins p p' t t') {g : State → State} (hg : ∀ u z, g { u with x := z } = { g u with x := z }) :
    HighTwins p p' (g t) (g t') := by
  obtain ⟨hrest, hlow, hhigh⟩ := h
  have hx : ∀ u, (g u).x = u.x := fun u => (congrArg State.x (hg u u.x) :)
  refine ⟨?_, fun j hj => ?_, fun j hj => ?_⟩
  · rw [hx]
    exact (congrArg g hrest).trans (hg t t'.x)
  · simpa only [State.reg, hx] using hlow j hj
  · simpa only [State.reg, hx] using hhigh j hj

/-- The same value for a low register of both. -/
theorem setReg (h : HighTwins p p' t t') {rd : RegIdx} (hrd : RegIdx.nameable rd = true) (hv : v' = v) :
    HighTwins p p' (t.setReg rd v) (t'.setReg rd v') := by
  subst hv
  refine ⟨congrArg (fun u : State => { u with x := (t'.setReg rd v').x }) h.rest, fun j hj => ?_, fun j hj => ?_⟩
  · by_cases hjr : j = rd
    · subst hjr; simp
    · simpa [State.setReg_reg_ne _ hjr] using h.low j hj
  · have hjr : j ≠ rd := by
      rintro rfl
      exact absurd (of_decide_eq_true hrd) (by omega)
    simpa [State.setReg_reg_ne _ hjr] using h.high j hj

theorem advance (h : HighTwins p p' t t') : HighTwins p p' t.advance t'.advance := h.map fun _ _ => rfl

theorem setReport (h : HighTwins p p' t t') (r : Report) : HighTwins p p' (t.setReport r) (t'.setReport r) :=
  h.map (g := fun u => u.setReport r) fun _ _ => rfl

theorem setPc (h : HighTwins p p' t t') (b : Word) : HighTwins p p' (t.setPc b) (t'.setPc b) :=
  h.map (g := fun u => u.setPc b) fun _ _ => rfl

theorem setAcc (h : HighTwins p p' t t') (hv : v' = v) : HighTwins p p' (t.setAcc v) (t'.setAcc v') :=
  hv ▸ h.map (g := fun u => u.setAcc v) fun _ _ => rfl

theorem accAlu (h : HighTwins p p' t t') {o o' : AluOut 8} (ho : o' = o) :
    HighTwins p p' (Machine.accAlu o t) (Machine.accAlu o' t') :=
  ho ▸ h.map (g := Machine.accAlu o) fun _ _ => rfl

theorem regAlu (h : HighTwins p p' t t') {rd : RegIdx} (hrd : RegIdx.nameable rd = true) {o o' : AluOut 16}
    (ho : o' = o) : HighTwins p p' (Machine.regAlu rd o t) (Machine.regAlu rd o' t') := by
  subst ho
  rw [Machine.regAlu, Machine.regAlu, h.cfg]
  exact (h.map (g := fun u => u.setFlags _) fun _ _ => rfl).setReg hrd rfl

theorem memRead {kind : AccessKind} {u : State} (h : HighTwins p p' t t') (hr : Machine.memRead kind a t = .ok (w, u)) :
    ∃ u', Machine.memRead kind a t' = .ok (w, u') ∧ HighTwins p p' u u' := by
  obtain ⟨y, rfl⟩ : ∃ y, t' = { t with x := y } := ⟨_, h.rest⟩
  obtain ⟨ha, ⟨hroute, rfl, rfl⟩ | ⟨id, q, hroute, rfl, rfl⟩⟩ := memRead_ok hr
  · exact ⟨_, memRead_backing (s := { t with x := y }) kind ha hroute, h.map (g := fun u => u.log _) fun _ _ => rfl⟩
  · exact ⟨_, memRead_device (s := { t with x := y }) kind ha hroute,
      h.map (g := fun u => u.countDraw.log _) fun _ _ => rfl⟩

theorem memWrite {u : State} (h : HighTwins p p' t t') (hw : Machine.memWrite a v t = .ok u) :
    ∃ u', Machine.memWrite a v t' = .ok u' ∧ HighTwins p p' u u' := by
  obtain ⟨y, rfl⟩ : ∃ y, t' = { t with x := y } := ⟨_, h.rest⟩
  obtain ⟨ha, ⟨hroute, rfl⟩ | ⟨id, q, hroute, rfl⟩⟩ := memWrite_ok hw
  · exact ⟨_, memWrite_backing (s := { t with x := y }) v ha hroute,
      h.map (g := fun u => (u.setMemWord _ _).log _) fun _ _ => rfl⟩
  · exact ⟨_, memWrite_device (s := { t with x := y }) v ha hroute, h.map (g := fun u => u.log _) fun _ _ => rfl⟩

/-- The same fault raised by both, on the register files they started with. -/
theorem raise (h : HighTwins t.x t'.x t t') {g : State → Fault}
    (hg : ∀ u u', faultLeft (g u) = u ∧ faultWithLeft u' (g u) = g u') :
    TwinOutcomes t.x t'.x (Machine.raise g t) (Machine.raise g t') := by
  obtain ⟨hleft, hwith⟩ := hg t.markFaulted t'.markFaulted
  refine ⟨(congrArg State.x hleft :), ?_⟩
  rw [hleft, ← hwith]
  exact congrArg (fun u => faultWithLeft u _) (congrArg State.markFaulted h.rest)

theorem withRead (h : HighTwins t.x t'.x t t') (ha : a' = a) {rest : Word → State → State}
    (hrest : ∀ w u u', HighTwins t.x t'.x u u' → HighTwins t.x t'.x (rest w u) (rest w u')) :
    TwinOutcomes t.x t'.x (Machine.withRead a t rest) (Machine.withRead a' t' rest) := by
  subst ha
  by_cases hb : memSize t.cfg.arch ≤ a'
  · rw [withRead_outOfBounds rest hb, withRead_outOfBounds rest (h.cfg ▸ hb)]
    exact h.raise (g := Fault.bounds a') fun _ _ => ⟨rfl, rfl⟩
  · obtain ⟨w, u, hu⟩ := memRead_answers .read (Nat.not_le.mp hb)
    obtain ⟨u', hu', huu⟩ := h.memRead hu
    rw [withRead_of_ok hu, withRead_of_ok hu']
    exact twinOutcomes_next (hrest w u u' huu).advance

theorem withWrite (h : HighTwins t.x t'.x t t') (ha : a' = a) (hv : v' = v) :
    TwinOutcomes t.x t'.x (Machine.withWrite a v t) (Machine.withWrite a' v' t') := by
  subst ha hv
  by_cases hb : memSize t.cfg.arch ≤ a'
  · rw [withWrite_outOfBounds v' hb, withWrite_outOfBounds v' (h.cfg ▸ hb)]
    exact h.raise (g := Fault.bounds a') fun _ _ => ⟨rfl, rfl⟩
  · obtain ⟨u, hu⟩ := memWrite_answers v' (Nat.not_le.mp hb)
    obtain ⟨u', hu', huu⟩ := h.memWrite hu
    rw [withWrite_of_ok hu, withWrite_of_ok hu']
    exact twinOutcomes_next huu.advance

theorem jumpIf (h : HighTwins p p' t t') {c c' : Bool} (hc : c' = c) (target : Word) :
    TwinOutcomes p p' (Machine.jumpIf c target t) (Machine.jumpIf c' target t') := by
  subst hc
  cases c'
  · exact twinOutcomes_next h.advance
  · exact twinOutcomes_next (h.setPc target)

/-- Every instruction that names registers 0 to 3 only, by the shape of its execute phase. -/
theorem exec {i : Instr} (hi : i.wellFormed = true) (h : HighTwins t.x t'.x t t') :
    TwinOutcomes t.x t'.x (Machine.exec i t) (Machine.exec i t') := by
  cases i
  case accMove => exact twinOutcomes_next (h.setAcc rfl).advance
  case accAdd | accSub | accAnd => exact twinOutcomes_next (h.accAlu (by simp only [accOperand, h.acc])).advance
  case accLoad => exact h.withRead rfl fun _ _ _ hu => hu.setAcc (by rw [hu.cfg])
  case accAddm | accSubm => exact h.withRead rfl fun _ _ _ hu => hu.accAlu (by simp only [accOperand, hu.acc])
  case accStore => exact h.withWrite rfl h.acc
  case accJumpu | regJumpu => exact twinOutcomes_next (h.setPc _)
  case accJumpz | accJumpnz | accJumpc | regJumpz | regJumpnz | regJumpc => exact h.jumpIf (by rw [h.flags]) _
  case regCall | regXop1 | regXop2 | regXop3 | regXop4 | regXop5 | regRet => exact h.raise fun _ _ => ⟨rfl, rfl⟩
  case regMoveI => exact twinOutcomes_next (h.setReg hi rfl).advance
  case regAddI | regSubI | regAndI | regOrI | regRol | regRor | regAsl =>
    exact twinOutcomes_next (h.regAlu hi (by rw [h.reg hi])).advance
  case regLoad => exact h.withRead rfl fun _ _ _ hu => hu.setReg (by decide) rfl
  case regStore => exact h.withWrite rfl (h.reg (by decide))
  case regAddm | regSubm =>
    exact h.withRead rfl fun _ _ _ hu => hu.regAlu (by decide) (by rw [hu.reg (by decide)])
  case regMove =>
    obtain ⟨hrd, hrs⟩ := Bool.and_eq_true_iff.mp hi
    exact twinOutcomes_next (h.setReg hrd (h.reg hrs)).advance
  case regLoadInd =>
    obtain ⟨hrd, hrs⟩ := Bool.and_eq_true_iff.mp hi
    exact h.withRead (by rw [h.reg hrs]) fun _ _ _ hu => hu.setReg hrd rfl
  case regStoreInd =>
    obtain ⟨hrd, hrs⟩ := Bool.and_eq_true_iff.mp hi
    exact h.withWrite (by rw [h.reg hrs]) (h.reg hrd)
  case regAdd | regSub | regAnd | regOr | regXor =>
    obtain ⟨hrd, hrs⟩ := Bool.and_eq_true_iff.mp hi
    exact twinOutcomes_next (h.regAlu hrd (by rw [h.reg hrd, h.reg hrs])).advance

theorem fetch {u : State} (h : HighTwins p p' t t') (hu : Machine.fetch t = .ok u) :
    ∃ u', Machine.fetch t' = .ok u' ∧ HighTwins p p' u u' := by
  obtain ⟨w, v, hv, rfl⟩ := fetch_ok hu
  obtain ⟨v', hv', hvv⟩ := h.memRead hv
  rw [← h.pc] at hv'
  exact ⟨v'.setIr w, fetch_of_memRead hv', hvv.map (g := fun u => u.setIr w) fun _ _ => rfl⟩

end HighTwins

/-- The report `ok` is told to both or to neither. -/
theorem twinOutcomes_reportOk {r r' : Result} (h : TwinOutcomes p p' r r') :
    TwinOutcomes p p' (reportOk r) (reportOk r') := by
  cases r with
  | next t =>
    obtain ⟨t', rfl, ht⟩ := twinOutcomes_next_left h
    exact ht.setReport .ok
  | fault f =>
    obtain ⟨hx, rfl⟩ := twinOutcomes_fault_left h
    exact ⟨hx, rfl⟩
  | refused q => exact h.elim

/-- The same word decoded, the same halt-loop check, and the same instruction executed. -/
theorem HighTwins.decodeAndExecute (h : HighTwins t.x t'.x t t') (d : Bool) :
    TwinOutcomes t.x t'.x (Machine.decodeAndExecute d t) (Machine.decodeAndExecute d t') := by
  unfold Machine.decodeAndExecute haltLoop
  rw [h.cfg, h.ir, h.pc]
  split
  · exact h.raise fun _ _ => ⟨rfl, rfl⟩
  next i hi =>
    obtain ⟨-, hwf⟩ := decodedInstructionFitsVariant _ _ _ hi
    split
    · exact twinOutcomes_next (h.setReport .halted)
    · exact twinOutcomes_reportOk (h.exec hwf)

theorem HighTwins.step (h : HighTwins t.x t'.x t t') : TwinOutcomes t.x t'.x (Machine.step t) (Machine.step t') := by
  rw [step_eq, step_eq, h.detectHalt]
  cases hu : Machine.fetch t with
  | error f =>
    obtain ⟨hb, rfl⟩ := fetch_error hu
    have hu' := fetch_outOfBounds (s := t') (h.cfg ▸ h.pc ▸ hb)
    rw [stepWith, hu, stepWith, hu', h.pc]
    exact h.raise (g := Fault.bounds t.pc.toNat) fun _ _ => ⟨rfl, rfl⟩
  | ok u =>
    obtain ⟨u', hu', huu⟩ := h.fetch hu
    obtain ⟨-, -, -, hx, -⟩ := fetch_frame hu
    obtain ⟨-, -, -, hx', -⟩ := fetch_frame hu'
    rw [stepWith, hu, stepWith, hu']
    rw [← hx, ← hx'] at huu ⊢
    exact huu.decodeAndExecute t.detectHalt

/-- A machine and its copy with other high registers are twins. -/
theorem highTwins_start {y : Vector Word 8} (hy : ∀ j : RegIdx, j.val < 4 → y[j.val] = s.reg j) :
    HighTwins s.x y s { s with x := y } :=
  ⟨rfl, hy, fun _ _ => ⟨rfl, rfl⟩⟩

theorem twinOutcomes_step {y : Vector Word 8} (hy : ∀ j : RegIdx, j.val < 4 → y[j.val] = s.reg j) :
    TwinOutcomes s.x y (step s) (step { s with x := y }) :=
  (highTwins_start hy).step

/-- Settles O54: the decoder cuts register fields of 2 bits, and the step of a machine and of its twin are twins. -/
theorem highRegistersUnreachable : Obligations.HighRegistersUnreachable := by
  refine ⟨fun cfg w i h => (decodedInstructionFitsVariant cfg w i h).2, fun s y hy => ⟨fun t ht => ?_, fun f hf => ?_⟩⟩
  · obtain ⟨t', ht', hrest, hlow, hhigh⟩ := twinOutcomes_next_left (ht ▸ twinOutcomes_step hy)
    exact ⟨t'.x, ht'.trans (congrArg _ hrest), fun j => ⟨hlow j, hhigh j⟩⟩
  · exact twinOutcomes_fault_left (hf ▸ twinOutcomes_step hy)

end Sys2Proof.Machine
end

section
/-! SUPPORT. The mapping table under `memmap` and `unmap` (20_memory.md R59, R62, R63): which addresses and devices a
table names afterwards, and where the router then sends an address. -/

namespace Sys2Proof.Machine

variable {β : Type} {s : State} {m : DeviceMap} {id : DeviceId} {p : HookPair} {a : Nat}

/-! Tables. -/

theorem mem_tableErase {l : List (Nat × β)} {k : Nat} {c : Nat × β} : c ∈ tableErase l k ↔ c ∈ l ∧ c.1 ≠ k := by
  simp [tableErase]

theorem mem_tablePut_iff {l : List (Nat × β)} {k : Nat} {v : β} {c : Nat × β} :
    c ∈ tablePut l k v ↔ c = (k, v) ∨ c ∈ l ∧ c.1 ≠ k := by
  rw [tablePut, mem_tableInsert, mem_tableErase]

theorem tableGet_erase (l : List (Nat × β)) (k j : Nat) :
    tableGet (tableErase l k) j = if j = k then none else tableGet l j := by
  split
  next h => rw [h, tableGet_erase_self]
  next h => exact tableGet_erase_ne l h

theorem tableGet_eq_none {l : List (Nat × β)} {k : Nat} (h : ∀ v, (k, v) ∉ l) : tableGet l k = none :=
  Option.eq_none_iff_forall_not_mem.mpr fun v hv => h v (mem_of_tableGet hv)

/-- In a sorted table an entry is the one its key reads. -/
theorem tableGet_of_mem {l : List (Nat × β)} (hl : tableRising l = true) {k : Nat} {v : β} (h : (k, v) ∈ l) :
    tableGet l k = some v := by
  rw [tableRising_iff] at hl
  induction l with
  | nil => cases h
  | cons c l ih =>
    obtain ⟨hc, hl⟩ := List.pairwise_cons.mp hl
    obtain rfl | h := List.mem_cons.mp h
    · simp [tableGet]
    · rw [tableGet, if_neg (hc _ h).ne, ih hl h]

/-- Dropping entries of one value does not touch a key that reads another. -/
theorem tableGet_filter_value [DecidableEq β] (l : List (Nat × β)) {v : β} {k : Nat} (h : tableGet l k ≠ some v) :
    tableGet (l.filter fun c => decide (c.2 ≠ v)) k = tableGet l k := by
  induction l with
  | nil => rfl
  | cons c l ih =>
    by_cases hk : c.1 = k
    · have hv : c.2 ≠ v := fun e => h (by simp [tableGet, hk, e])
      simp [hv, tableGet, hk]
    · rw [tableGet, if_neg hk] at h ⊢
      by_cases hv : c.2 = v
      · simpa [hv] using ih h
      · simpa [hv, tableGet, hk] using ih h

/-! `memmap`. -/

theorem tableGet_mapAddrs (id : DeviceId) (addrs : List Nat) (l : List (Nat × DeviceId)) (a : Nat) :
    tableGet (mapAddrs id addrs l) a = if a ∈ addrs then some id else tableGet l a := by
  induction addrs generalizing l with
  | nil => simp [mapAddrs]
  | cons b bs ih =>
    have hcons : mapAddrs id (b :: bs) l = mapAddrs id bs (tablePut l b id) := rfl
    rw [hcons, ih, tableGet_put]
    by_cases hbs : a ∈ bs <;> by_cases hb : a = b <;> simp [hbs, hb]

theorem mapAddrs_rising {l : List (Nat × DeviceId)} (h : tableRising l = true) (id : DeviceId) (addrs : List Nat) :
    tableRising (mapAddrs id addrs l) = true := by
  induction addrs generalizing l with
  | nil => exact h
  | cons b bs ih => exact ih (tablePut_rising h b id)

/-- Every entry belongs to the device or is an old one at another address: no second entry of a mapped address stays,
even in a table that held several. -/
theorem mem_mapAddrs {addrs : List Nat} {l : List (Nat × DeviceId)} {c : Nat × DeviceId}
    (h : c ∈ mapAddrs id addrs l) : c.2 = id ∨ c ∈ l ∧ c.1 ∉ addrs := by
  induction addrs generalizing l with
  | nil => exact .inr ⟨h, List.not_mem_nil⟩
  | cons b bs ih =>
    obtain hid | ⟨hput, hbs⟩ := ih h
    · exact .inl hid
    · obtain rfl | ⟨hl, hb⟩ := mem_tablePut_iff.mp hput
      · exact .inl rfl
      · exact .inr ⟨hl, by simp [hb, hbs]⟩

/-- The state with another mapping table: all that `memmap` and `unmap` change (R59). -/
def State.withDevices (s : State) (m : DeviceMap) : State := { s with devices := m }

/-- The two tables after `memmap` (R62). -/
def DeviceMap.mapped (m : DeviceMap) (id : DeviceId) (addrs : List Nat) (p : HookPair) : DeviceMap :=
  { addrs := mapAddrs id addrs m.addrs, hooks := tablePut m.hooks id p }

theorem memmap_next {addrs : List Nat} (h : ∀ a ∈ addrs, a < memSize s.cfg.arch) (id : DeviceId) (p : HookPair) :
    State.memmap id addrs p s = .next (s.withDevices (s.devices.mapped id addrs p)) := by
  have hnone : addrs.find? (fun a => decide (memSize s.cfg.arch ≤ a)) = none := by simpa using h
  simp [State.memmap, hnone, State.withDevices, DeviceMap.mapped]

theorem devicesOk_mapped {addrs : List Nat} (hs : devicesOk s) (h : ∀ a ∈ addrs, a < memSize s.cfg.arch)
    (id : DeviceId) (p : HookPair) : devicesOk (s.withDevices (s.devices.mapped id addrs p)) := by
  obtain ⟨haddrs, hhooks, hmap⟩ := hs
  refine ⟨mapAddrs_rising haddrs id addrs, tablePut_rising hhooks id p, fun a d had => ?_⟩
  simp only [State.withDevices, DeviceMap.mapped, tableGet_mapAddrs, tableGet_put] at had ⊢
  split at had
  next ha => cases had; simp [h a ha]
  next ha =>
    obtain ⟨hlt, hd⟩ := hmap a d had
    exact ⟨hlt, by split <;> simp [hd]⟩

/-- Settles O39: each address put in turn reads the device, and the others what they read before. -/
theorem memmapMapsExactly : Obligations.MemmapMapsExactly :=
  fun id addrs p _ h => ⟨_, memmap_next h id p, tableGet_mapAddrs id addrs _, tableGet_put _ id p, rfl,
    fun hs => devicesOk_mapped hs h id p⟩

/-! `unmap`. -/

/-- The two tables after `unmap` (R63). -/
def DeviceMap.unmapped (m : DeviceMap) (id : DeviceId) : DeviceMap :=
  { addrs := m.addrs.filter fun c => decide (c.2 ≠ id), hooks := tableErase m.hooks id }

theorem unmap_next (h : (tableGet s.devices.hooks id).isSome = true) :
    State.unmap id s = .next (s.withDevices (s.devices.unmapped id)) := by
  obtain ⟨p, hp⟩ := Option.isSome_iff_exists.mp h
  simp [State.unmap, hp, State.withDevices, DeviceMap.unmapped]

theorem mem_unmapped {c : Nat × DeviceId} : c ∈ (m.unmapped id).addrs ↔ c ∈ m.addrs ∧ c.2 ≠ id := by
  simp [DeviceMap.unmapped]

theorem tableGet_unmapped_ne (m : DeviceMap) (id : DeviceId) (a : Nat) :
    tableGet (m.unmapped id).addrs a ≠ some id :=
  fun h => (mem_unmapped.mp (mem_of_tableGet h)).2 rfl

/-- An address of which the device holds every entry is unmapped with the device. -/
theorem tableGet_unmapped_owned (h : ∀ d, (a, d) ∈ m.addrs → d = id) : tableGet (m.unmapped id).addrs a = none :=
  tableGet_eq_none fun d hd =>
    have ⟨hmem, hne⟩ := mem_unmapped.mp hd
    hne (h d hmem)

theorem tableGet_unmapped_other (h : tableGet m.addrs a ≠ some id) :
    tableGet (m.unmapped id).addrs a = tableGet m.addrs a :=
  tableGet_filter_value m.addrs h

theorem devicesOk_unmapped (hs : devicesOk s) (id : DeviceId) :
    devicesOk (s.withDevices (s.devices.unmapped id)) := by
  obtain ⟨haddrs, hhooks, hmap⟩ := hs
  refine ⟨?rising, tableErase_rising hhooks id, fun a d had => ?mapped⟩
  case rising =>
    rw [tableRising_iff] at haddrs ⊢
    exact haddrs.filter _
  case mapped =>
    obtain ⟨hmem, hne⟩ := mem_unmapped.mp (mem_of_tableGet had)
    obtain ⟨hlt, hd⟩ := hmap a d (tableGet_of_mem haddrs hmem)
    exact ⟨hlt, (tableGet_erase_ne _ hne).symm ▸ hd⟩

/-- Settles O40: in a well-formed table an address has one entry, so that the device's entries leave none behind. -/
theorem unmapRemovesDevice : Obligations.UnmapRemovesDevice := by
  intro id s hs hid
  refine ⟨_, unmap_next hid, fun a ha => ?owned, tableGet_unmapped_ne s.devices id,
    fun a => tableGet_unmapped_other, tableGet_erase _ id, rfl, devicesOk_unmapped hs id⟩
  obtain ⟨haddrs, -, -⟩ := hs
  exact tableGet_unmapped_owned fun d hd =>
    Option.some.inj ((tableGet_of_mem haddrs hd).symm.trans ha)

/-! Routing. -/

theorem route_eq_some (ha : tableGet m.addrs a = some id) (hp : tableGet m.hooks id = some p) :
    m.route a = some (id, p) := by
  simp [DeviceMap.route, ha, hp]

theorem route_eq_none (ha : tableGet m.addrs a = none) : m.route a = none := by
  simp [DeviceMap.route, ha]

/-- After `memmap` the router sends the addresses to the device, with the given hooks. -/
theorem route_mapped {addrs : List Nat} (ha : a ∈ addrs) : (m.mapped id addrs p).route a = some (id, p) :=
  route_eq_some (by simp [DeviceMap.mapped, tableGet_mapAddrs, ha]) (by simp [DeviceMap.mapped, tableGet_put])

/-- After `memmap` and then `unmap` the router sends the addresses to the backing array, whoever held them before. -/
theorem route_mapped_unmapped {addrs : List Nat} (ha : a ∈ addrs) :
    ((m.mapped id addrs p).unmapped id).route a = none :=
  route_eq_none <| tableGet_unmapped_owned fun _ hd =>
    (mem_mapAddrs hd).resolve_right fun ⟨_, hnot⟩ => hnot ha

end Sys2Proof.Machine
end

section
/-! SUPPORT. What a memory access does and leaves alone, and which accesses a step makes (20_memory.md R53, R54, R58, R72,
R74). -/

namespace Sys2Proof.Machine

variable {s t : State} {m : DeviceMap} {id : DeviceId} {p : HookPair} {i : Instr} {a : Nat} {v w : Word}

/-- Settles O36, within the bound and past it. -/
theorem memReadRule : Obligations.MemReadRule := by
  refine fun kind a s => ⟨memRead_outOfBounds kind, fun ha => ?_⟩
  obtain ⟨w, t, ht⟩ := memRead_answers kind ha
  obtain ⟨-, hpc, -, hacc, hx, hflags, -⟩ := memRead_frame ht
  exact ⟨w, t, ht, readGives_of_memRead ht, hpc, hflags, ⟨hacc, reg_eq_of_x hx⟩, sameBase_of_memRead ht⟩

/-- Under a table left by `memmap` a write of a mapped address goes to the device's hook (R61, R62). -/
theorem memWrite_mapped {addrs : List Nat} (hdev : s.devices = m.mapped id addrs p) (hin : a ∈ addrs)
    (ha : a < memSize s.cfg.arch) (v : Word) :
    memWrite a v s = .ok (s.log ⟨.write, a, v, .device id p.onWrite⟩) :=
  memWrite_device v ha (hdev ▸ route_mapped hin)

/-- Once the device is unmapped again, a write of such an address goes to the backing array (R54, R63). -/
theorem memWrite_unmapped {addrs : List Nat} (hdev : s.devices = (m.mapped id addrs p).unmapped id) (hin : a ∈ addrs)
    (ha : a < memSize s.cfg.arch) (v : Word) :
    memWrite a v s = .ok ((s.setMemWord a v).log ⟨.write, a, v, .backing⟩) :=
  memWrite_backing v ha (hdev ▸ route_mapped_unmapped hin)

/-- Settles O37: the bounds and the frame of a write, and the routes of an address after `memmap` and after `unmap`. -/
theorem memWriteRule : Obligations.MemWriteRule := by
  refine ⟨fun a v s => ⟨memWrite_outOfBounds v, fun ha => ?access⟩, fun id a p v s ha => ?remapped⟩
  case access =>
    obtain ⟨t, ht⟩ := memWrite_answers v ha
    obtain ⟨-, hpc, -, hacc, hx, hflags, -⟩ := memWrite_frame ht
    exact ⟨t, ht, writeGives_of_memWrite ht, hpc, hflags, ⟨hacc, reg_eq_of_x hx⟩, sameBase_of_memWrite ht⟩
  case remapped =>
    have hin : a ∈ [a] := List.mem_singleton_self a
    refine ⟨_, _, _, _, memmap_next ?addrs id p, memWrite_mapped rfl hin ?mappedBound v, rfl, rfl,
      unmap_next ?registered, memWrite_unmapped rfl hin ?unmappedBound v, ?word, rfl⟩
    case addrs => simpa using ha
    case mappedBound | unmappedBound => exact ha
    case registered => simp [State.withDevices, DeviceMap.mapped, tableGet_put]
    case word => simp [Memory.word_setWord]

/-- A store to an unmapped address that leaves `pc` there is what the next fetch reads (R69, R72). -/
theorem fetch_of_withWrite (h : withWrite a v s = .next t) (hr : s.devices.route a = none) (hpc : t.pc.toNat = a) :
    ∃ u, fetch t = .ok u ∧ u.ir = v := by
  obtain ⟨u, hu, rfl⟩ := withWrite_next h
  obtain ⟨ha, ⟨-, rfl⟩ | ⟨id, p, hdev, -⟩⟩ := memWrite_ok hu
  · refine ⟨_, fetch_of_memRead (memRead_backing .fetch (hpc ▸ ha) (hpc ▸ hr)), ?_⟩
    simp only [State.setIr_ir, hpc]
    simp [Memory.word_setWord]
  · simp [hr] at hdev

/-- Settles O38: each store is a write phase at its operand's address. -/
theorem storedWordIsFetchedNext : Obligations.StoredWordIsFetchedNext := by
  refine ⟨fun a s t h hr hpc => ?acc, fun a s t h hr hpc => ?reg, fun rd rs s t h hr hpc => ?ind⟩
  case acc =>
    have ha : absAddr a = a.toNat := zext16_toNat a (by decide)
    exact fetch_of_withWrite h (ha ▸ hr) (ha ▸ hpc)
  case reg =>
    have ha : absAddr a = a.toNat := zext16_toNat a (by decide)
    exact fetch_of_withWrite h (ha ▸ hr) (ha ▸ hpc)
  case ind => exact fetch_of_withWrite h hr (by rw [hpc])

/-! The history of one step. -/

theorem memRead_history {kind : AccessKind} (h : memRead kind a s = .ok (w, t)) :
    ∃ g, t.history = ⟨kind, a, w, g⟩ :: s.history := by
  obtain ⟨-, ⟨-, -, rfl⟩ | ⟨id, p, -, -, rfl⟩⟩ := memRead_ok h
  · exact ⟨_, rfl⟩
  · exact ⟨_, rfl⟩

theorem memWrite_history (h : memWrite a v s = .ok t) : ∃ g, t.history = ⟨.write, a, v, g⟩ :: s.history := by
  obtain ⟨-, ⟨-, rfl⟩ | ⟨id, p, -, rfl⟩⟩ := memWrite_ok h
  · exact ⟨_, rfl⟩
  · exact ⟨_, rfl⟩

/-- A fetch is one access, of the word now in `ir`, at `pc` (R112). -/
theorem fetch_history (h : fetch s = .ok t) : ∃ g, t.history = ⟨.fetch, s.pc.toNat, t.ir, g⟩ :: s.history := by
  obtain ⟨w, u, hu, rfl⟩ := fetch_ok h
  exact memRead_history (t := u) hu

/-- From `s` to `t` the history grew by one event of the access kind of `i`, or by none if `i` makes no data access. -/
def LogsDataAccess (i : Instr) (s t : State) : Prop :=
  (dataAccess i = none ∧ t.history = s.history) ∨ ∃ d, dataAccess i = some d.kind ∧ t.history = d :: s.history

theorem LogsDataAccess.of_sameHistory (hi : dataAccess i = none) (ht : t.history = s.history) :
    LogsDataAccess i s t.advance :=
  .inl ⟨hi, ht⟩

theorem LogsDataAccess.of_withRead {rest : Word → State → State} (h : withRead a s rest = .next t)
    (hi : dataAccess i = some .read) (hrest : ∀ w u, (rest w u).history = u.history) : LogsDataAccess i s t := by
  obtain ⟨w, u, hu, rfl⟩ := withRead_next h
  obtain ⟨g, hg⟩ := memRead_history hu
  exact .inr ⟨_, hi, (hrest w u).trans hg⟩

theorem LogsDataAccess.of_withWrite (h : withWrite a v s = .next t) (hi : dataAccess i = some .write) :
    LogsDataAccess i s t := by
  obtain ⟨u, hu, rfl⟩ := withWrite_next h
  obtain ⟨g, hg⟩ := memWrite_history hu
  exact .inr ⟨_, hi, hg⟩

theorem LogsDataAccess.of_jumpIf {c : Bool} (h : jumpIf c w s = .next t) (hi : dataAccess i = none) :
    LogsDataAccess i s t := by
  obtain ⟨-, rfl⟩ | ⟨-, rfl⟩ := jumpIf_next h
  · exact .inl ⟨hi, rfl⟩
  · exact .inl ⟨hi, rfl⟩

/-- Every instruction that completes, by the shape of its execute phase: one read, one write, or no access (R58). The
ALU's frame is cited, since comparing the states themselves would compute the difference of two registers. -/
theorem exec_next_logs (h : exec i s = .next t) : LogsDataAccess i s t := by
  cases i
  case accLoad | regLoad | regLoadInd => exact .of_withRead h rfl fun _ _ => rfl
  case accAddm | accSubm => exact .of_withRead h rfl fun _ _ => accAlu_history _ _
  case regAddm | regSubm => exact .of_withRead h rfl fun _ _ => regAlu_history _ _ _
  case accStore | regStore | regStoreInd => exact .of_withWrite h rfl
  case accJumpz | accJumpnz | accJumpc | regJumpz | regJumpnz | regJumpc => exact .of_jumpIf h rfl
  case accJumpu | regJumpu => exact .of_jumpIf (c := true) h rfl
  case regCall | regXop1 | regXop2 | regXop3 | regXop4 | regXop5 | regRet => cases h
  case accMove | regMoveI | regMove => cases h; exact .of_sameHistory rfl rfl
  case accAdd | accSub | accAnd => cases h; exact .of_sameHistory rfl (accAlu_history _ _)
  all_goals cases h; exact .of_sameHistory rfl (regAlu_history _ _ _)

/-- The halt-loop check stops at a JUMPU only, which makes no data access (R116). -/
theorem dataAccess_of_haltLoop {d : Bool} (h : haltLoop d i s = true) : dataAccess i = none := by
  obtain ⟨-, h⟩ := Bool.and_eq_true_iff.mp h
  cases i
  case accJumpu | regJumpu => rfl
  all_goals cases h

/-- Settles O58: the event of the fetch, and then the instruction's own, or none when the step halts on a JUMPU. -/
theorem stepAccesses : Obligations.StepAccesses := by
  intro s t h
  obtain ⟨u, i, hu, hi, hend⟩ := stepWith_next h
  obtain ⟨g, hg⟩ := fetch_history hu
  refine ⟨⟨.fetch, s.pc.toNat, u.ir, g⟩, i, rfl, rfl, ?_⟩
  obtain ⟨hl, rfl⟩ | ⟨-, v, hv, rfl⟩ := hend
  · exact ⟨rfl, hi, .inl ⟨dataAccess_of_haltLoop hl, hg⟩⟩
  · obtain ⟨hcfg, hir, -⟩ := exec_next_sameBase hv
    refine ⟨hir.symm, by simpa [hcfg, hir] using hi, ?_⟩
    rw [← hg]
    exact (exec_next_logs hv :)

end Sys2Proof.Machine
end

section
/-! SUPPORT. Decoding from the word's fields (30_encoding.md R80 to R95): the fields as numbers, and what `decode` answers
once the row of the opcode is known. -/

namespace Sys2Proof

variable {cfg : Config} {w : Word}

/-! The fields as numbers. -/

theorem opField_eq_ofNat (w : Word) : opField w = BitVec.ofNat 4 (w.toNat / 4096) := by
  simp [opField, BitVec.extractLsb', Nat.shiftRight_eq_div_pow]

theorem sopField_eq_ofNat (w : Word) : sopField w = BitVec.ofNat 4 w.toNat := by
  simp [sopField, BitVec.extractLsb']

theorem opField_toNat (w : Word) : (opField w).toNat = w.toNat / 4096 := by
  rw [opField_eq_ofNat, BitVec.toNat_ofNat]
  omega

theorem opField_eq {op : BitVec 4} (h : w.toNat / 4096 = op.toNat) : opField w = op :=
  BitVec.eq_of_toNat_eq ((opField_toNat w).trans h)

theorem sopField_eq {sop : BitVec 4} (h : w.toNat % 16 = sop.toNat) : sopField w = sop :=
  BitVec.eq_of_toNat_eq (by simpa [sopField] using h)

theorem eq_kField {k : BitVec 8} (h : k.toNat = w.toNat % 256) : k = kField w :=
  BitVec.eq_of_toNat_eq (by simpa [kField] using h)

theorem eq_aField {a : BitVec 12} (h : a.toNat = w.toNat % 4096) : a = aField w :=
  BitVec.eq_of_toNat_eq (by simpa [aField] using h)

theorem eq_rdField {rd : RegIdx} (h : rd.val = w.toNat / 1024 % 4) : rd = rdField w :=
  Fin.ext (by simpa [rdField, regIndex, Nat.shiftRight_eq_div_pow] using h)

theorem eq_rsField {rs : RegIdx} (h : rs.val = w.toNat / 256 % 4) : rs = rsField w :=
  Fin.ext (by simpa [rsField, regIndex, Nat.shiftRight_eq_div_pow] using h)

/-! The answer of `decode`, by variant, space and row. -/

theorem accRow_of_noRow {op : BitVec 4} (h : rowOf cfg.opmap.acc op = none) : accRow cfg op = none := by
  simp [accRow, h]

/-- The row of JUMPC is taken away while `ACC_HAS_JUMPC` is false (R172). -/
theorem accRow_of_jumpc {op : BitVec 4} (h : rowOf cfg.opmap.acc op = some .jumpc)
    (hj : cfg.accHasJumpc = false) : accRow cfg op = none := by
  simp [accRow, h, hj]

theorem decode_acc_row {op : BitVec 4} {o : AccOp} (harch : cfg.arch = .acc) (hrow : accRow cfg op = some o)
    (hop : opField w = op) : decode cfg w = .ok (accInstr o w) := by
  simp [decode, harch, decodeAcc, hop, hrow]

theorem decode_acc_noRow (harch : cfg.arch = .acc) (hrow : accRow cfg (opField w) = none) :
    decode cfg w = .error ⟨opField w, none⟩ := by
  simp [decode, harch, decodeAcc, hrow]

/-- The ACC decoder rejects exactly the words whose opcode has no row. -/
theorem decode_acc_error_iff (harch : cfg.arch = .acc) :
    decode cfg w = .error ⟨opField w, none⟩ ↔ accRow cfg (opField w) = none := by
  refine ⟨fun h => ?_, decode_acc_noRow harch⟩
  cases hrow : accRow cfg (opField w) with
  | none => rfl
  | some o => simp [decode_acc_row harch hrow rfl] at h

theorem decode_primary_row {op : BitVec 4} {o : RegOp} (harch : cfg.arch = .reg)
    (hrow : rowOf cfg.opmap.primary op = some o) (hext : op ≠ extOpcode) (hop : opField w = op) :
    decode cfg w = .ok (regInstr o w) := by
  simp [decode, harch, decodeReg, hop, hext, hrow]

theorem decode_primary_noRow (harch : cfg.arch = .reg) (hrow : rowOf cfg.opmap.primary (opField w) = none)
    (hext : opField w ≠ extOpcode) : decode cfg w = .error ⟨opField w, none⟩ := by
  simp [decode, harch, decodeReg, hext, hrow]

theorem decode_secondary_row {sop : BitVec 4} {o : RegOp} (harch : cfg.arch = .reg)
    (hrow : rowOf cfg.opmap.secondary sop = some o) (hop : opField w = extOpcode) (hsop : sopField w = sop) :
    decode cfg w = .ok (regInstr o w) := by
  simp [decode, harch, decodeReg, hop, hsop, hrow]

theorem decode_secondary_noRow (harch : cfg.arch = .reg) (hrow : rowOf cfg.opmap.secondary (sopField w) = none)
    (hext : opField w = extOpcode) : decode cfg w = .error ⟨opField w, some (sopField w)⟩ := by
  simp [decode, harch, decodeReg, hext, hrow]

/-! Which opcodes have a row in the default map. -/

theorem accRow_default_eq_none_iff : ∀ op, accRow (Config.default .acc) op = none ↔ 0xB ≤ op.toNat := by decide

theorem accRow_withJumpc_eq_none_iff :
    ∀ op, accRow { Config.default .acc with accHasJumpc := true } op = none ↔ 0xC ≤ op.toNat := by decide

theorem primaryStandard_isSome :
    ∀ op, op ≠ extOpcode → (rowOf (Config.default .reg).opmap.primary op).isSome = true := by decide

theorem secondaryStandard_isSome : ∀ sop, (rowOf (Config.default .reg).opmap.secondary sop).isSome = true := by decide

/-! Words under the default parameters, by the opcode as a number. -/

theorem decode_default_acc {hasJumpc : Bool} (op : BitVec 4) {o : AccOp}
    (hrow : accRow { Config.default .acc with accHasJumpc := hasJumpc } op = some o) (hop : w.toNat / 4096 = op.toNat) :
    decode { Config.default .acc with accHasJumpc := hasJumpc } w = .ok (accInstr o w) :=
  decode_acc_row rfl hrow (opField_eq hop)

theorem decode_default_primary (op : BitVec 4) {o : RegOp}
    (hrow : rowOf (Config.default .reg).opmap.primary op = some o) (hext : op ≠ extOpcode := by decide)
    (hop : w.toNat / 4096 = op.toNat) : decode (Config.default .reg) w = .ok (regInstr o w) :=
  decode_primary_row rfl hrow hext (opField_eq hop)

theorem decode_default_secondary (sop : BitVec 4) {o : RegOp}
    (hrow : rowOf (Config.default .reg).opmap.secondary sop = some o) (hext : w.toNat / 4096 = 0xF)
    (hsop : w.toNat % 16 = sop.toNat) : decode (Config.default .reg) w = .ok (regInstr o w) :=
  decode_secondary_row rfl hrow (opField_eq hext) (sopField_eq hsop)

end Sys2Proof
end

section
/-! SUPPORT. The encoder as the decoder's inverse on canonical words (30_encoding.md R97): each format puts its operands
where the fields are cut. -/

namespace Sys2Proof

variable {cfg : Config} {op sop : BitVec 4} {rd rs : RegIdx} {k : BitVec 8} {a : BitVec 12}

/-- A register that a 2-bit field can hold is what the field gives back (R28). -/
theorem regIndex_ofNat (h : RegIdx.nameable rd = true) : regIndex (BitVec.ofNat 2 rd.val) = rd :=
  Fin.ext (by simpa [regIndex] using Nat.mod_eq_of_lt (of_decide_eq_true h))

@[simp] theorem opField_encodeAcc : opField (encodeAcc op k) = op :=
  (BitVec.extractLsb'_append_eq_of_le (by decide)).trans BitVec.extractLsb'_append_eq_left

@[simp] theorem kField_encodeAcc : kField (encodeAcc op k) = k := BitVec.extractLsb'_append_eq_right

@[simp] theorem opField_encodeAbs : opField (encodeAbs op a) = op := BitVec.extractLsb'_append_eq_left

@[simp] theorem aField_encodeAbs : aField (encodeAbs op a) = a := BitVec.extractLsb'_append_eq_right

@[simp] theorem opField_encodeImm : opField (encodeImm op rd k) = op :=
  (BitVec.extractLsb'_append_eq_of_le (by decide)).trans <|
    (BitVec.extractLsb'_append_eq_of_le (by decide)).trans BitVec.extractLsb'_append_eq_left

@[simp] theorem kField_encodeImm : kField (encodeImm op rd k) = k := BitVec.extractLsb'_append_eq_right

theorem rdField_encodeImm (h : RegIdx.nameable rd = true) : rdField (encodeImm op rd k) = rd := by
  have hbits : (encodeImm op rd k).extractLsb' 10 2 = BitVec.ofNat 2 rd.val :=
    (BitVec.extractLsb'_append_eq_of_le (by decide)).trans <|
      (BitVec.extractLsb'_append_eq_of_le (by decide)).trans BitVec.extractLsb'_append_eq_right
  rw [rdField, hbits, regIndex_ofNat h]

@[simp] theorem opField_encodeReg : opField (encodeReg sop rd rs) = extOpcode :=
  (BitVec.extractLsb'_append_eq_of_le (by decide)).trans <|
    (BitVec.extractLsb'_append_eq_of_le (by decide)).trans <|
      (BitVec.extractLsb'_append_eq_of_le (by decide)).trans BitVec.extractLsb'_append_eq_left

@[simp] theorem sopField_encodeReg : sopField (encodeReg sop rd rs) = sop := BitVec.extractLsb'_append_eq_right

theorem rdField_encodeReg (h : RegIdx.nameable rd = true) : rdField (encodeReg sop rd rs) = rd := by
  have hbits : (encodeReg sop rd rs).extractLsb' 10 2 = BitVec.ofNat 2 rd.val :=
    (BitVec.extractLsb'_append_eq_of_le (by decide)).trans <|
      (BitVec.extractLsb'_append_eq_of_le (by decide)).trans <|
        (BitVec.extractLsb'_append_eq_of_le (by decide)).trans BitVec.extractLsb'_append_eq_right
  rw [rdField, hbits, regIndex_ofNat h]

theorem rsField_encodeReg (h : RegIdx.nameable rs = true) : rsField (encodeReg sop rd rs) = rs := by
  have hbits : (encodeReg sop rd rs).extractLsb' 8 2 = BitVec.ofNat 2 rs.val :=
    (BitVec.extractLsb'_append_eq_of_le (by decide)).trans <|
      (BitVec.extractLsb'_append_eq_of_le (by decide)).trans BitVec.extractLsb'_append_eq_right
  rw [rsField, hbits, regIndex_ofNat h]

/-! What a canonical word of each format decodes to, given its row and how the row cuts the fields. -/

theorem decode_encodeAcc {o : AccOp} {i : Instr} (harch : cfg.arch = .acc) (hrow : accRow cfg op = some o)
    (hi : accInstr o (encodeAcc op k) = i) : decode cfg (encodeAcc op k) = .ok i :=
  hi ▸ decode_acc_row harch hrow opField_encodeAcc

theorem decode_encodeAbs {o : RegOp} {i : Instr} (harch : cfg.arch = .reg)
    (hrow : rowOf cfg.opmap.primary op = some o) (hext : op ≠ extOpcode) (hi : regInstr o (encodeAbs op a) = i) :
    decode cfg (encodeAbs op a) = .ok i :=
  hi ▸ decode_primary_row harch hrow hext opField_encodeAbs

theorem decode_encodeImm {o : RegOp} {i : Instr} (harch : cfg.arch = .reg)
    (hrow : rowOf cfg.opmap.primary op = some o) (hext : op ≠ extOpcode) (hi : regInstr o (encodeImm op rd k) = i) :
    decode cfg (encodeImm op rd k) = .ok i :=
  hi ▸ decode_primary_row harch hrow hext opField_encodeImm

theorem decode_encodeReg {o : RegOp} {i : Instr} (harch : cfg.arch = .reg)
    (hrow : rowOf cfg.opmap.secondary sop = some o) (hi : regInstr o (encodeReg sop rd rs) = i) :
    decode cfg (encodeReg sop rd rs) = .ok i :=
  hi ▸ decode_secondary_row harch hrow opField_encodeReg sopField_encodeReg

/-- Settles O2, by the format of the canonical word: its opcode has the instruction's row, and the fields give the
operands back. -/
theorem decodeOfEncode : Obligations.DecodeOfEncode := by
  intro i hasJumpc hwf hjumpc
  cases i
  case accJumpc a =>
    obtain rfl : hasJumpc = true := hjumpc.resolve_right fun h => h a rfl
    exact decode_encodeAcc rfl rfl (by simp [accInstr])
  case accMove | accAdd | accSub | accAnd | accLoad | accStore | accAddm | accSubm | accJumpu | accJumpz | accJumpnz =>
    exact decode_encodeAcc rfl rfl (by simp [accInstr])
  case regMoveI | regAddI | regSubI | regAndI | regOrI =>
    exact decode_encodeImm rfl rfl (by decide) (by simp [regInstr, rdField_encodeImm hwf])
  case regLoad | regStore | regAddm | regSubm | regJumpu | regJumpz | regJumpnz | regJumpc | regCall | regXop1 =>
    exact decode_encodeAbs rfl rfl (by decide) (by simp [regInstr])
  case regMove | regLoadInd | regStoreInd | regAdd | regSub | regAnd | regOr | regXor =>
    obtain ⟨hrd, hrs⟩ := Bool.and_eq_true_iff.mp hwf
    exact decode_encodeReg rfl rfl (by simp [regInstr, rdField_encodeReg hrd, rsField_encodeReg hrs])
  case regRol | regRor | regAsl => exact decode_encodeReg rfl rfl (by simp [regInstr, rdField_encodeReg hwf])
  case regXop2 | regXop3 | regXop4 | regXop5 | regRet => exact decode_encodeReg rfl rfl rfl

end Sys2Proof
end

section
/-! SUPPORT. The decoder on every word of each variant under the default map (30_encoding.md R90 to R93). -/

namespace Sys2Proof

/-- Settles O3: every opcode and every secondary opcode has its row. -/
theorem everyRegWordDecodes : Obligations.EveryRegWordDecodes := by
  intro w
  suffices h : ∃ o, decode (Config.default .reg) w = .ok (regInstr o w) by
    obtain ⟨o, ho⟩ := h
    exact ⟨_, ho, regInstr_arch o w, regInstr_wellFormed o w⟩
  by_cases hext : opField w = extOpcode
  · obtain ⟨o, ho⟩ := Option.isSome_iff_exists.mp (secondaryStandard_isSome (sopField w))
    exact ⟨o, decode_secondary_row rfl ho hext rfl⟩
  · obtain ⟨o, ho⟩ := Option.isSome_iff_exists.mp (primaryStandard_isSome (opField w) hext)
    exact ⟨o, decode_primary_row rfl ho hext rfl⟩

/-- Settles O4: the rejected words are those without a row, and the tables' rows are known. -/
theorem accUnknownOpcodeWords : Obligations.AccUnknownOpcodeWords := by
  intro w
  rw [← opField_toNat, ← accRow_default_eq_none_iff, ← accRow_withJumpc_eq_none_iff, BitVec.ofNat_toNat,
    BitVec.setWidth_eq]
  exact ⟨decode_acc_error_iff rfl, decode_acc_error_iff rfl⟩

/-- Settles O5: each clause is the row of one opcode, cut at `kField`. -/
theorem accWordsDecodeByRow : Obligations.AccWordsDecodeByRow := by
  intro w hasJumpc k hk
  obtain rfl := eq_kField hk
  exact ⟨
    decode_default_acc 0x0 rfl, decode_default_acc 0x1 rfl, decode_default_acc 0x2 rfl, decode_default_acc 0x3 rfl,
    decode_default_acc 0x4 rfl, decode_default_acc 0x5 rfl, decode_default_acc 0x6 rfl, decode_default_acc 0x7 rfl,
    decode_default_acc 0x8 rfl, decode_default_acc 0x9 rfl, decode_default_acc 0xA rfl,
    fun hop hj => hj ▸ decode_default_acc (hasJumpc := true) 0xB rfl hop⟩

/-- Settles O6: each clause is the row of one primary opcode, cut at `rdField`, `kField` or `aField`. -/
theorem regPrimaryWordsDecodeByRow : Obligations.RegPrimaryWordsDecodeByRow := by
  intro w rd k a hrd hk ha
  obtain rfl := eq_rdField hrd
  obtain rfl := eq_kField hk
  obtain rfl := eq_aField ha
  exact ⟨
    decode_default_primary 0x0 rfl, decode_default_primary 0x1 rfl, decode_default_primary 0x2 rfl,
    decode_default_primary 0x3 rfl, decode_default_primary 0x4 rfl, decode_default_primary 0x5 rfl,
    decode_default_primary 0x6 rfl, decode_default_primary 0x7 rfl, decode_default_primary 0x8 rfl,
    decode_default_primary 0x9 rfl, decode_default_primary 0xA rfl, decode_default_primary 0xB rfl,
    decode_default_primary 0xC rfl, decode_default_primary 0xD rfl, decode_default_primary 0xE rfl⟩

/-- Settles O7: each clause is the row of one secondary opcode, cut at `rdField` and `rsField`. -/
theorem regSecondaryWordsDecodeByRow : Obligations.RegSecondaryWordsDecodeByRow := by
  intro w rd rs hext hrd hrs
  obtain rfl := eq_rdField hrd
  obtain rfl := eq_rsField hrs
  exact ⟨
    decode_default_secondary 0x0 rfl hext, decode_default_secondary 0x1 rfl hext,
    decode_default_secondary 0x2 rfl hext, decode_default_secondary 0x3 rfl hext,
    decode_default_secondary 0x4 rfl hext, decode_default_secondary 0x5 rfl hext,
    decode_default_secondary 0x6 rfl hext, decode_default_secondary 0x7 rfl hext,
    decode_default_secondary 0x8 rfl hext, decode_default_secondary 0x9 rfl hext,
    decode_default_secondary 0xA rfl hext, decode_default_secondary 0xB rfl hext,
    decode_default_secondary 0xC rfl hext, decode_default_secondary 0xD rfl hext,
    decode_default_secondary 0xE rfl hext, decode_default_secondary 0xF rfl hext⟩

/-- Settles O1: each word is closed, so its decoding is computed. -/
theorem sampleWordsDecode : Obligations.SampleWordsDecode :=
  ⟨rfl, rfl, rfl, rfl, rfl, rfl, rfl, rfl, rfl, rfl, rfl⟩

end Sys2Proof
end

section
/-! SUPPORT. Steps that stop in the decode or the execute phase: the words without a row and the reserved encodings
(30_encoding.md R93, R94; 40_cycle.md R112, R113; 60_exceptions.md R242, R243, R248). -/

namespace Sys2Proof.Machine

variable {s t : State} {i : Instr} {w : Word}

/-! The fetch in the terms of Safety.lean. -/

theorem fetch_backing (hpc : s.pc.toNat < memSize s.cfg.arch) (hr : s.devices.route s.pc.toNat = none) :
    fetch s = .ok (afterFetch s (s.mem.word s.pc.toNat)) :=
  fetch_of_memRead (memRead_backing .fetch hpc hr)

theorem fetch_device {id : DeviceId} {p : HookPair} (hpc : s.pc.toNat < memSize s.cfg.arch)
    (hr : s.devices.route s.pc.toNat = some (id, p)) : fetch s = .ok (afterDeviceFetch s id p) :=
  fetch_of_memRead (memRead_device .fetch hpc hr)

/-! Steps that fault after the fetch. -/

theorem step_of_undecoded {e : UnknownOpcode} (hf : fetch s = .ok t) (hd : decode t.cfg t.ir = .error e) :
    step s = .fault (.unknownOpcode e.op e.sop t.markFaulted) := by
  simp [step_eq, stepWith, hf, decodeAndExecute, hd, raise]

/-- An instruction that is no JUMPU is no halt-loop, so its fault is the step's. -/
theorem step_of_exec_fault {f : Fault} (hf : fetch s = .ok t) (hd : decode t.cfg t.ir = .ok i)
    (hi : jumpuTarget i = none) (he : exec i t = .fault f) : step s = .fault f := by
  have hl : haltLoop s.detectHalt i t = false := by simp [haltLoop, hi]
  rw [step_eq, stepWith_of_decoded hf hd hl, he, reportOk]

/-- Settles O27: each of the seven only raises. -/
theorem unimplementedInstructionsFault : Obligations.UnimplementedInstructionsFault :=
  fun _ _ => ⟨rfl, rfl, rfl, rfl, rfl, rfl, rfl⟩

/-- Settles O28: each word decodes by its row to an instruction that only raises, on the state after the fetch. -/
theorem unimplementedWordsFault : Obligations.UnimplementedWordsFault := by
  intro s w hcfg hpc hr hw
  have hf : fetch s = .ok (afterFetch s w) := hw ▸ fetch_backing (by rw [hcfg]; exact hpc) hr
  have stops {i : Instr} {f : Fault} (hd : decode (Config.default .reg) w = .ok i) (hi : jumpuTarget i = none)
      (he : exec i (afterFetch s w) = .fault f) : step s = .fault f :=
    step_of_exec_fault hf (hcfg ▸ hd) hi he
  refine ⟨fun hop => ?call, fun hop => ?xop1, fun hop hsop => ?xop2, fun hop hsop => ?xop3, fun hop hsop => ?xop4,
    fun hop hsop => ?xop5, fun hop hsop => ?ret⟩
  case call => exact stops (decode_default_primary 0xC rfl (hop := hop)) rfl rfl
  case xop1 => exact stops (decode_default_primary 0xE rfl (hop := hop)) rfl rfl
  case xop2 => exact stops (decode_default_secondary 0xB rfl hop hsop) rfl rfl
  case xop3 => exact stops (decode_default_secondary 0xC rfl hop hsop) rfl rfl
  case xop4 => exact stops (decode_default_secondary 0xD rfl hop hsop) rfl rfl
  case xop5 => exact stops (decode_default_secondary 0xE rfl hop hsop) rfl rfl
  case ret => exact stops (decode_default_secondary 0xF rfl hop hsop) rfl rfl

/-- Whatever the fetch read, a word without a row stops the step, with the state after the fetch. -/
theorem unknownOpcodeRaised_of_fetch (hf : fetch s = .ok t) : unknownOpcodeRaised s t.ir t := by
  have hcfg := fetch_cfg hf
  unfold unknownOpcodeRaised
  rw [← opField_eq_ofNat, ← sopField_eq_ofNat, ← hcfg]
  refine ⟨fun harch h => ?accNoRow, fun harch h hj => ?accJumpc, fun harch hop h => ?primary,
    fun harch hop h => ?secondary⟩
  case accNoRow => exact step_of_undecoded hf (decode_acc_noRow harch (accRow_of_noRow h))
  case accJumpc => exact step_of_undecoded hf (decode_acc_noRow harch (accRow_of_jumpc h hj))
  case primary => exact step_of_undecoded hf (decode_primary_noRow harch h hop)
  case secondary => exact step_of_undecoded hf (decode_secondary_noRow harch h hop)

/-- Settles O48, by where the fetch went. -/
theorem unknownOpcodeFaults : Obligations.UnknownOpcodeFaults :=
  fun _ hpc => ⟨fun hr => unknownOpcodeRaised_of_fetch (fetch_backing hpc hr),
    fun _ _ hr => unknownOpcodeRaised_of_fetch (fetch_device hpc hr)⟩

end Sys2Proof.Machine
end

section
/-! SUPPORT. The halt-loop: when the check answers yes, what the step then leaves, and what a step without one runs
(40_cycle.md R110, R111, R116 to R118, R121). -/

namespace Sys2Proof.Machine

variable {s t : State} {i : Instr} {d : Bool} {w : Word}

theorem haltLoop_eq_true_iff : haltLoop d i s = true ↔ d = true ∧ jumpuTarget i = some s.pc := by
  simp [haltLoop]

/-- A JUMPU's target is its field, as wide as the variant's addresses (R83, R86). -/
theorem jumpuTarget_eq_some_iff :
    jumpuTarget i = some w ↔
      (∃ a, i = .accJumpu a ∧ a.toNat = w.toNat) ∨ ∃ a, i = .regJumpu a ∧ a.toNat = w.toNat := by
  cases i
  case accJumpu a | regJumpu a =>
    rw [jumpuTarget, Option.some_inj, ← BitVec.toNat_inj, zext16_toNat a (by decide)]
    simp
  all_goals simp [jumpuTarget]

/-- Executing a JUMPU sets `pc` and nothing else (R169, R189). -/
theorem exec_of_jumpuTarget (h : jumpuTarget i = some w) : exec i s = .next (s.setPc w) := by
  cases i
  case accJumpu | regJumpu => cases h; rfl
  all_goals cases h

theorem exec_selfJump (h : jumpuTarget i = some s.pc) : exec i s = .next s := exec_of_jumpuTarget h

theorem stepWith_of_haltLoop (hf : fetch s = .ok t) (hd : decode t.cfg t.ir = .ok i) (hl : haltLoop d i t = true) :
    stepWith d s = .next (t.setReport .halted) := by
  simp [stepWith, hf, decodeAndExecute, hd, hl]

/-- The check after the fetch compares with the `pc` before it, which the fetch keeps. -/
theorem step_of_decoded (hf : fetch s = .ok t) (hd : decode t.cfg t.ir = .ok i)
    (hi : ¬(s.detectHalt = true ∧ jumpuTarget i = some s.pc)) : step s = reportOk (exec i t) := by
  obtain ⟨-, hpc, -⟩ := fetch_frame hf
  rw [← hpc, ← haltLoop_eq_true_iff, Bool.not_eq_true] at hi
  exact stepWith_of_decoded hf hd hi

/-- Settles O46, by where the fetch went. -/
theorem stepRunsDecodedInstruction : Obligations.StepRunsDecodedInstruction :=
  fun _ _ hpc hi => ⟨fun hr hd => step_of_decoded (fetch_backing hpc hr) hd hi,
    fun _ _ hr hd => step_of_decoded (fetch_device hpc hr) hd hi⟩

/-- A self-jump halts under detection, and without it is executed to no effect. -/
theorem stepWith_selfJump (hf : fetch s = .ok t) (hd : decode t.cfg t.ir = .ok i) (hi : jumpuTarget i = some t.pc) :
    stepWith true s = .next (t.setReport .halted) ∧ stepWith false s = .next (t.setReport .ok) := by
  refine ⟨stepWith_of_haltLoop hf hd (haltLoop_eq_true_iff.mpr ⟨rfl, hi⟩), ?_⟩
  rw [stepWith_of_decoded hf hd rfl, exec_selfJump hi, reportOk]

/-- Settles O49, on the state after the fetch. -/
theorem selfJumpBothSettings : Obligations.SelfJumpBothSettings :=
  fun _ _ hpc hr hd hi => stepWith_selfJump (fetch_backing hpc hr) hd hi

/-- A step that reports `halted` fetched a self-jump, and left the state after the fetch. -/
theorem step_halted (h : step s = .next t) (ht : t.report = .halted) :
    ∃ u i, fetch s = .ok u ∧ decode u.cfg u.ir = .ok i ∧ haltLoop s.detectHalt i u = true ∧
      t = u.setReport .halted := by
  obtain ⟨u, i, hu, hi, ⟨hl, rfl⟩ | ⟨-, v, -, rfl⟩⟩ := stepWith_next h
  · exact ⟨u, i, hu, hi, hl, rfl⟩
  · cases ht

/-- The halt report by the state the step leaves, whose `cfg` and `ir` are those the decode saw. -/
theorem report_halted_iff (h : step s = .next t) :
    t.report = .halted ↔
      s.detectHalt = true ∧ ∃ i, decode t.cfg t.ir = .ok i ∧ jumpuTarget i = some s.pc := by
  obtain ⟨u, i, hu, hi, hend⟩ := stepWith_next h
  obtain ⟨-, hpc, -⟩ := fetch_frame hu
  obtain ⟨hl, rfl⟩ | ⟨hl, v, hv, rfl⟩ := hend
  · obtain ⟨hdet, hj⟩ := haltLoop_eq_true_iff.mp hl
    exact iff_of_true rfl ⟨hdet, i, hi, hpc ▸ hj⟩
  · obtain ⟨hcfg, hir, -⟩ := exec_next_sameBase hv
    refine iff_of_false (by simp) fun ⟨hdet, j, hj, htarget⟩ => ?_
    obtain rfl : i = j := by simpa [hcfg, hir, hi] using hj
    rw [haltLoop_eq_true_iff.mpr ⟨hdet, hpc ▸ htarget⟩] at hl
    cases hl

/-- Settles O50: the two instructions with a JUMPU target are the two JUMPUs. -/
theorem haltedExactlyOnSelfJump : Obligations.HaltedExactlyOnSelfJump := by
  intro s t h
  rw [report_halted_iff h]
  refine and_congr_right fun _ => ?_
  simp only [jumpuTarget_eq_some_iff, and_or_left, exists_or]
  refine or_congr ?acc ?reg
  case acc | reg =>
    constructor
    · rintro ⟨_, hd, a, rfl, ha⟩; exact ⟨a, hd, ha⟩
    · rintro ⟨a, hd, ha⟩; exact ⟨_, hd, a, rfl, ha⟩

theorem pc_lt_of_fetch (h : fetch s = .ok t) : s.pc.toNat < memSize s.cfg.arch := by
  obtain ⟨w, u, hu, -⟩ := fetch_ok h
  exact (memRead_ok hu).1

/-- Settles O51: the halted step changed nothing that the fetch or the check reads, so the next one halts too. -/
theorem haltedIsRepeated : Obligations.HaltedIsRepeated := by
  intro s t hr h ht
  obtain ⟨u, i, hu, hi, hl, rfl⟩ := step_halted h ht
  have hpc := pc_lt_of_fetch hu
  obtain rfl : afterFetch s (s.mem.word s.pc.toNat) = u := by simpa [fetch_backing hpc hr] using hu
  have hfetch := fetch_backing (s := (afterFetch s (s.mem.word s.pc.toNat)).setReport .halted) hpc hr
  exact ⟨_, stepWith_of_haltLoop hfetch hi hl, rfl, rfl, rfl, rfl, ⟨rfl, fun _ => rfl⟩, rfl⟩

end Sys2Proof.Machine
end

section
/-! SUPPORT. `pc` after an instruction that completes (40_cycle.md R114, R115), and the outcomes of a step: what a fault
leaves, and which faults there are (R111, R119; 60_exceptions.md R240 to R248). -/

namespace Sys2Proof.Machine

variable {s t : State} {i : Instr} {f : Fault} {a : Nat} {v : Word}

/-! The program counter. -/

theorem pcAdvanced_advance (h : t.pc = s.pc) : pcAdvanced s t.advance := by
  simp [pcAdvanced, h, BitVec.toNat_add]

theorem withRead_pcAdvanced {rest : Word → State → State} (h : withRead a s rest = .next t)
    (hrest : ∀ w u, (rest w u).pc = u.pc) : pcAdvanced s t := by
  obtain ⟨w, u, hu, rfl⟩ := withRead_next h
  obtain ⟨-, hpc, -⟩ := memRead_frame hu
  exact pcAdvanced_advance ((hrest w u).trans hpc)

theorem withWrite_pcAdvanced (h : withWrite a v s = .next t) : pcAdvanced s t := by
  obtain ⟨u, hu, rfl⟩ := withWrite_next h
  obtain ⟨-, hpc, -⟩ := memWrite_frame hu
  exact pcAdvanced_advance hpc

/-- An instruction with `inc`, by the shape of its execute phase: a read, a write, a stop, or registers (R114). The ALU's
frame is cited, since comparing the states themselves would compute the operation. -/
theorem exec_pcAdvanced_of_inc (hi : instrInc i = true) (h : exec i s = .next t) : pcAdvanced s t := by
  cases i
  case accLoad | regLoad | regLoadInd => exact withRead_pcAdvanced h fun _ _ => rfl
  case accAddm | accSubm => exact withRead_pcAdvanced h fun _ _ => accAlu_pc _ _
  case regAddm | regSubm => exact withRead_pcAdvanced h fun _ _ => regAlu_pc _ _ _
  case accStore | regStore | regStoreInd => exact withWrite_pcAdvanced h
  case regXop1 | regXop2 | regXop3 | regXop4 | regXop5 => cases h
  case accJumpu | accJumpz | accJumpnz | accJumpc | regJumpu | regJumpz | regJumpnz | regJumpc | regCall | regRet =>
    cases hi
  case accMove | regMoveI | regMove => cases h; exact pcAdvanced_advance rfl
  case accAdd | accSub | accAnd => cases h; exact pcAdvanced_advance (accAlu_pc _ _)
  all_goals cases h; exact pcAdvanced_advance (regAlu_pc _ _ _)

/-- An instruction without `inc` that completes is a jump to the target it carries, JUMPU always taken (R115). -/
theorem exec_jumpIf_of_not_inc (hi : instrInc i = false) (h : exec i s = .next t) :
    ∃ w : Word, jumpTarget i = some w.toNat ∧ jumpIf (jumpTaken s.flags i) w s = .next t := by
  cases i
  case accJumpu a | accJumpz a | accJumpnz a | accJumpc a | regJumpu a | regJumpz a | regJumpnz a | regJumpc a =>
    exact ⟨zext16 a, by rw [zext16_toNat a (by decide)]; rfl, h⟩
  case regCall | regRet => cases h
  all_goals cases hi

/-- Settles O56, by `inc`, and for a jump by whether it is taken. -/
theorem pcUpdateByIncFlag : Obligations.PcUpdateByIncFlag := by
  refine fun i s t h => ⟨fun hi => exec_pcAdvanced_of_inc hi h, fun hi => ?_⟩
  obtain ⟨w, hw, hjump⟩ := exec_jumpIf_of_not_inc hi h
  refine ⟨w.toNat, hw, ?_⟩
  obtain ⟨htaken, rfl⟩ | ⟨htaken, rfl⟩ := jumpIf_next hjump
  · exact ⟨fun _ => rfl, fun h => by simp [htaken] at h⟩
  · exact ⟨fun h => by simp [htaken] at h, fun _ => pcAdvanced_advance rfl⟩

/-! What a faulting step leaves. -/

/-- A step that faults hands back its own state if the fetch was out of bounds, else the state after it (R248). -/
theorem step_fault_left_by_fetch (h : step s = .fault f) :
    (memSize s.cfg.arch ≤ s.pc.toNat ∧ faultLeft f = s.markFaulted) ∨
      ∃ u, fetch s = .ok u ∧ faultLeft f = u.markFaulted := by
  obtain ⟨hpc, rfl⟩ | ⟨u, hu, ⟨e, -, rfl⟩ | ⟨i, -, -, hi⟩⟩ := stepWith_fault h
  · exact .inl ⟨hpc, rfl⟩
  · exact .inr ⟨u, hu, rfl⟩
  · exact .inr ⟨u, hu, exec_fault_left hi⟩

/-- Settles O59: a decode or execute phase that faults changes nothing, and the fetch changes `ir` only. -/
theorem faultChangesOnlyIr : Obligations.FaultChangesOnlyIr := by
  intro s f h
  obtain ⟨hout, hleft⟩ | ⟨u, hu, hleft⟩ := step_fault_left_by_fetch h <;> rw [hleft]
  · exact ⟨rfl, rfl, ⟨rfl, fun _ => rfl⟩, rfl, rfl, rfl, rfl, .inl ⟨hout, rfl, rfl, rfl⟩⟩
  · obtain ⟨-, hpc, hacc, hx, hflags, hmem, hdev, -⟩ := fetch_frame hu
    obtain ⟨g, hg⟩ := fetch_history hu
    exact ⟨hpc, hflags, ⟨hacc, reg_eq_of_x hx⟩, hmem, hdev, rfl, rfl, .inr ⟨pc_lt_of_fetch hu, _, rfl, rfl, rfl, hg⟩⟩

/-! The three faults of the core. -/

/-- One of the faults of R241 to R243, with the state it hands back; the register-index error is none of them. -/
def IsCoreFault (f : Fault) : Prop :=
  (∃ a, f = .bounds a (faultLeft f)) ∨ (∃ op sop, f = .unknownOpcode op sop (faultLeft f)) ∨
    ∃ op, f = .unimplemented op (faultLeft f)

theorem isCoreFault_bounds (a : Nat) (s : State) : IsCoreFault (.bounds a s) := .inl ⟨a, rfl⟩

theorem isCoreFault_unknownOpcode (op : BitVec 4) (sop : Option (BitVec 4)) (s : State) :
    IsCoreFault (.unknownOpcode op sop s) := .inr (.inl ⟨op, sop, rfl⟩)

theorem isCoreFault_unimplemented (op : RegOp) (s : State) : IsCoreFault (.unimplemented op s) := .inr (.inr ⟨op, rfl⟩)

/-- An instruction that faults made an access out of bounds or is one of the seven reserved encodings. -/
theorem exec_fault_isCoreFault (h : exec i s = .fault f) : IsCoreFault f := by
  cases i
  case accLoad | accAddm | accSubm | regLoad | regAddm | regSubm | regLoadInd =>
    obtain ⟨-, rfl⟩ := withRead_fault h
    exact isCoreFault_bounds _ _
  case accStore | regStore | regStoreInd =>
    obtain ⟨-, rfl⟩ := withWrite_fault h
    exact isCoreFault_bounds _ _
  case regCall | regXop1 | regXop2 | regXop3 | regXop4 | regXop5 | regRet =>
    cases h
    exact isCoreFault_unimplemented _ _
  all_goals cases h

theorem step_fault_isCoreFault (h : step s = .fault f) : IsCoreFault f := by
  obtain ⟨-, rfl⟩ | ⟨u, -, ⟨e, -, rfl⟩ | ⟨i, -, -, hi⟩⟩ := stepWith_fault h
  · exact isCoreFault_bounds _ _
  · exact isCoreFault_unknownOpcode _ _ _
  · exact exec_fault_isCoreFault hi

theorem reportOk_exec_ne_refused (i : Instr) (s : State) (r : Refusal) : reportOk (exec i s) ≠ .refused r := by
  have hbase := exec_keepsBase i s
  cases he : exec i s with
  | next t => simp [reportOk]
  | fault f => simp [reportOk]
  | refused q => simp [he, keepsBase] at hbase

/-- No phase of a step refuses: the fetch and the decode answer or fault, the halt-loop answers, and so does `exec`. -/
theorem step_ne_refused (s : State) (r : Refusal) : step s ≠ .refused r := by
  cases hf : fetch s with
  | error f => simp [step_eq, stepWith, hf]
  | ok t =>
    cases hd : decode t.cfg t.ir with
    | error e => simp [step_of_undecoded hf hd]
    | ok i =>
      cases hl : haltLoop s.detectHalt i t with
      | true => simp [step_eq, stepWith_of_haltLoop hf hd hl]
      | false => simpa [step_eq, stepWith_of_decoded hf hd hl] using reportOk_exec_ne_refused i t r

/-- Settles O60, by the outcome. -/
theorem stepNeverRefuses : Obligations.StepNeverRefuses := by
  intro s
  cases h : step s with
  | next t => exact .inl ⟨t, rfl⟩
  | fault f => exact .inr ⟨f, rfl, step_fault_isCoreFault h⟩
  | refused r => exact absurd h (step_ne_refused s r)

end Sys2Proof.Machine
end

section
/-! SUPPORT. The ALU's operations as the library's operations on bit vectors (41_alu.md R130 to R133, R142 to R144): the
results of an addition and of a subtraction, their overflow as signed overflow over `BitVec.toInt`, and the rotates by one
place. -/

namespace Sys2Proof.Machine

section Arithmetic

variable {n : Nat} (a b : BitVec n)

@[simp] theorem aluAdd_r : (aluAdd a b).r = a + b := rfl

@[simp] theorem aluSub_r : (aluSub a b).r = a - b := by
  apply BitVec.eq_of_toNat_eq
  rw [aluSub, BitVec.toNat_ofNat, BitVec.toNat_sub, Nat.add_comm, Nat.sub_add_comm b.isLt.le]

theorem aluAdd_carry_iff : (aluAdd a b).carry = true ↔ 2 ^ n ≤ a.toNat + b.toNat := decide_eq_true_iff

@[simp] theorem aluSub_carry : (aluSub a b).carry = false := rfl

theorem aluAdd_overflow_iff_msb :
    (aluAdd a b).overflow = true ↔ a.msb = b.msb ∧ (aluAdd a b).r.msb ≠ a.msb := by
  simp [aluAdd]

theorem aluSub_overflow_iff_msb :
    (aluSub a b).overflow = true ↔ a.msb ≠ b.msb ∧ (aluSub a b).r.msb ≠ a.msb := by
  simp [aluSub]

/-- R14's signed value is the library's. -/
theorem signedValue_toNat : signedValue n a.toNat = a.toInt := by
  rw [BitVec.toInt_eq_msb_cond, BitVec.msb_eq_decide, signedValue]
  by_cases h : a.toNat < 2 ^ (n - 1) <;> simp [h]

/-- The signs tell signed overflow (R132). -/
theorem aluAdd_overflow : (aluAdd a b).overflow = a.saddOverflow b := by
  rw [Bool.eq_iff_iff, aluAdd_overflow_iff_msb, BitVec.saddOverflow_eq]
  simp

/-- The signs tell signed overflow (R133). -/
theorem aluSub_overflow : (aluSub a b).overflow = a.ssubOverflow b := by
  rw [Bool.eq_iff_iff, aluSub_overflow_iff_msb, aluSub_r, BitVec.ssubOverflow_eq]
  cases a.msb <;> cases b.msb <;> simp

theorem aluAdd_overflow_iff :
    (aluAdd a b).overflow = true ↔ signedOverflow n (signedValue n a.toNat + signedValue n b.toNat) := by
  simp [aluAdd_overflow, BitVec.saddOverflow, signedOverflow, signedValue_toNat, or_comm]

theorem aluSub_overflow_iff :
    (aluSub a b).overflow = true ↔ signedOverflow n (signedValue n a.toNat - signedValue n b.toNat) := by
  simp [aluSub_overflow, BitVec.ssubOverflow, signedOverflow, signedValue_toNat, or_comm]

theorem aluAdd_r_toNat : (aluAdd a b).r.toNat = (a.toNat + b.toNat) % 2 ^ n := BitVec.toNat_add a b

theorem aluSub_r_toNat : (aluSub a b).r.toNat = differenceMod n a.toNat b.toNat := BitVec.toNat_ofNat _ _

end Arithmetic

/-- Settles O9, by the parts of the result. -/
theorem addLaw : Obligations.AddLaw :=
  fun _ a b _ => ⟨aluAdd_r_toNat a b, aluAdd_carry_iff a b, aluAdd_overflow_iff_msb a b⟩

/-- Settles O10, by the parts of the result. -/
theorem subtractLaw : Obligations.SubtractLaw :=
  fun _ a b _ => ⟨aluSub_r_toNat a b, aluSub_carry a b, aluSub_overflow_iff_msb a b⟩

/-- Settles O11: the test on the signs is signed overflow of the library's values, which are R14's. -/
theorem overflowIsSignedRange : Obligations.OverflowIsSignedRange :=
  fun _ a b _ => ⟨aluAdd_overflow_iff a b, aluSub_overflow_iff a b⟩

/-! The rotates and the shift. -/

section Rotates

variable (a : BitVec 16)

theorem aluRol_r : (aluRol a).r = a.rotateLeft 1 := rfl

/-- Shifting up 15 places leaves only bit 0 in sight, so masking the rest first changes nothing. -/
theorem aluRor_r : (aluRor a).r = a.rotateRight 1 := by
  have hmask : (a &&& 1) <<< 15 = a <<< 15 := by
    apply BitVec.eq_of_getLsbD_eq
    intro i hi
    by_cases h : i < 15
    · simp [h]
    · obtain rfl : i = 15 := by omega
      simp
  rw [aluRor, aluPlain, hmask, BitVec.rotateRight_def]

theorem aluRol_bits :
    (aluRol a).r.getLsbD 0 = a.getLsbD 15 ∧ ∀ i, i < 15 → (aluRol a).r.getLsbD (i + 1) = a.getLsbD i := by
  rw [aluRol_r]
  refine ⟨by simp, fun i hi => ?_⟩
  have hi' : i + 1 < 16 := by omega
  rw [BitVec.getLsbD_rotateLeft]
  simp [hi']

theorem aluRor_bits :
    (aluRor a).r.getLsbD 15 = a.getLsbD 0 ∧ ∀ i, i < 15 → (aluRor a).r.getLsbD i = a.getLsbD (i + 1) := by
  rw [aluRor_r]
  refine ⟨by simp, fun i hi => ?_⟩
  simp [BitVec.getLsbD_rotateRight, hi, Nat.add_comm]

theorem aluAsl_bits :
    (aluAsl a).r.getLsbD 0 = false ∧ ∀ i, i < 15 → (aluAsl a).r.getLsbD (i + 1) = a.getLsbD i := by
  refine ⟨by simp [aluAsl, aluPlain], fun i hi => ?_⟩
  have hi' : i + 1 < 16 := by omega
  rw [aluAsl, aluPlain, BitVec.getLsbD_shiftLeft]
  simp [hi']

end Rotates

/-- Settles O12: the rotates are the library's by one place, and a plain result has no marker (R136). -/
theorem rotateAndShiftBits : Obligations.RotateAndShiftBits :=
  fun a => ⟨aluRol_bits a, aluRor_bits a, aluAsl_bits a, rfl, rfl, rfl, rfl, rfl, rfl⟩

end Sys2Proof.Machine
end

section
/-! SUPPORT. Operands, results and flags as plain numbers (30_encoding.md R88; 41_alu.md R130 to R136;
42_acc_instructions.md R160), for both variants: the results of the instructions are stated in these. -/

namespace Sys2Proof.Machine

theorem absAddr_eq_toNat {n : Nat} (a : BitVec n) (hn : n ≤ 16) : absAddr a = a.toNat := zext16_toNat a hn

theorem sext16_toNat (k : BitVec 8) : (sext16 k).toNat = sextValue k.toNat := by
  have hk := k.isLt
  simp only [sext16, sextValue, BitVec.msb_eq_decide, decide_eq_true_eq]
  by_cases hneg : k.toNat ≤ 0x7F
  · rw [if_neg (by omega), if_pos hneg, BitVec.toNat_setWidth_of_le (by decide)]
  · rw [if_pos (by omega), if_neg hneg, BitVec.toNat_add, BitVec.toNat_setWidth_of_le (by decide)]
    have hpad : (0xFF00 : Word).toNat = 0xFF00 := rfl
    omega

theorem trunc8_toNat (v : Word) : (trunc8 v).toNat = v.toNat % 256 := BitVec.toNat_setWidth 8 v

theorem accOperand_toNat (s : State) : (accOperand s).toNat = s.acc.toNat % 256 := trunc8_toNat s.acc

theorem writeback_toNat (wb : Writeback) (r : BitVec 8) : (writeback wb r).toNat = writebackValue wb r.toNat := by
  cases wb with
  | zext => exact zext16_toNat r (by decide)
  | sext => exact sext16_toNat r

theorem accLoaded_toNat (cfg : Config) (w : Word) :
    (accLoaded cfg w).toNat = if cfg.accLoadFull = true then w.toNat else w.toNat % 256 := by
  by_cases hfull : cfg.accLoadFull = true
  · simp [accLoaded, hfull]
  · simp [accLoaded, hfull, zext16_toNat, trunc8_toNat]

/-! What an ALU operation gives, over numbers. -/

section Alu

variable {n x y r : Nat} {a b : BitVec n} {o : AluOut n} {c v : Prop}

/-- The operation gives the number `r` with the markers `c` and `v` (R131). -/
structure AluOut.Gives (o : AluOut n) (r : Nat) (c v : Prop) : Prop where
  result : o.r.toNat = r
  carry : o.carry = true ↔ c
  overflow : o.overflow = true ↔ v

/-- The five flags read the result and its markers only (R31, R136). -/
theorem AluOut.Gives.flagsAre (h : o.Gives r c v) (pz : Bool) : flagsAre pz n r c v (flagsOf pz o) := by
  obtain ⟨rfl, hc, hv⟩ := h
  have hzero : o.r = 0#n ↔ o.r.toNat = 0 := by simp [← BitVec.toNat_inj]
  exact ⟨by simp [flagsOf, hzero], by simp [flagsOf, BitVec.msb_eq_decide],
    by simp [flagsOf, BitVec.msb_eq_decide, hzero], hc, hv⟩

theorem aluAdd_gives (ha : a.toNat = x) (hb : b.toNat = y) :
    (aluAdd a b).Gives ((x + y) % 2 ^ n) (2 ^ n ≤ x + y) (signedOverflow n (signedValue n x + signedValue n y)) := by
  subst ha hb
  exact ⟨aluAdd_r_toNat a b, aluAdd_carry_iff a b, aluAdd_overflow_iff a b⟩

theorem aluSub_gives (ha : a.toNat = x) (hb : b.toNat = y) :
    (aluSub a b).Gives (differenceMod n x y) False (signedOverflow n (signedValue n x - signedValue n y)) := by
  subst ha hb
  exact ⟨aluSub_r_toNat a b, by simp, aluSub_overflow_iff a b⟩

/-- An operation without markers clears both (R136). -/
theorem aluPlain_gives (ha : a.toNat = x) : (aluPlain a).Gives x False False :=
  ⟨ha, by simp [aluPlain], by simp [aluPlain]⟩

theorem aluAnd_gives (ha : a.toNat = x) (hb : b.toNat = y) : (aluAnd a b).Gives (x &&& y) False False :=
  aluPlain_gives (by rw [BitVec.toNat_and, ha, hb])

end Alu

end Sys2Proof.Machine
end

section
/-! SUPPORT. What the execute phases leave, by their shape, for both variants (40_cycle.md R114, R115, R119): a move of
data, one read, one write, a jump. -/

namespace Sys2Proof.Machine

variable {s t u : State} {i : Instr} {a : Nat} {w : Word}

/-- A completing instruction that neither jumps nor calls the ALU is a move of data (R32, R114). -/
theorem moveLeaves_of_exec (hinc : instrInc i = true) (halu : usesAlu i = false) (h : exec i s = .next t) :
    moveLeaves s t :=
  ⟨(exec_next_frame h).flags halu, exec_pcAdvanced_of_inc hinc h, exec_next_sameBase h⟩

/-- What a read gives stays what it gave while the rest of the phase leaves memory alone. -/
theorem readGives_of_sameMemory {kind : AccessKind} (h : readGives kind s a w u) (hm : sameMemory u t) :
    readGives kind s a w t := by
  obtain ⟨hmem, hdraws, hhist⟩ := hm
  simpa only [readGives, hmem, hdraws, hhist] using h

/-- An in-bounds read phase completes with the word and the state of its read. -/
theorem withRead_completes {rest : Word → State → State} (ha : a < memSize s.cfg.arch)
    (hrest : ∀ w u, sameMemory u (rest w u)) :
    ∃ w u, memRead .read a s = .ok (w, u) ∧ withRead a s rest = .next (rest w u).advance ∧
      readGives .read s a w (rest w u).advance := by
  obtain ⟨w, u, hu⟩ := memRead_answers .read ha
  exact ⟨w, u, hu, withRead_of_ok hu, readGives_of_sameMemory (readGives_of_memRead hu) (hrest w u)⟩

/-- An in-bounds write phase completes, with the registers and the accumulator as before. -/
theorem withWrite_completes (v : Word) (ha : a < memSize s.cfg.arch) :
    ∃ t, withWrite a v s = .next t ∧ writeGives s a v t ∧ sameRegs s t := by
  obtain ⟨u, hu⟩ := memWrite_answers v ha
  obtain ⟨-, -, -, hacc, hx, -⟩ := memWrite_frame hu
  have hwrite : writeGives s a v u := writeGives_of_memWrite hu
  exact ⟨u.advance, withWrite_of_ok hu, hwrite, hacc, reg_eq_of_x hx⟩

/-- A jump leaves its target in `pc`, or one more where it is not taken, and nothing else (R115). -/
theorem exec_jumpIf_leaves {c : Bool} {p : Nat} (h : exec i s = jumpIf c w s)
    (hp : (if c = true then w.toNat else (s.pc.toNat + 1) % 2 ^ 16) = p) :
    ∃ t, exec i s = .next t ∧ t.pc.toNat = p ∧ onlyPcChanged s t := by
  subst hp
  cases c with
  | true => exact ⟨s.setPc w, h, rfl, by simp [onlyPcChanged, sameBase, sameMemory, sameRegs]⟩
  | false =>
    exact ⟨s.advance, h, pcAdvanced_advance rfl, by simp [onlyPcChanged, sameBase, sameMemory, sameRegs]⟩

end Sys2Proof.Machine
end

section
/-! SUPPORT. The accumulator variant's instructions (42_acc_instructions.md R160 to R172): each one's result and its
frame. -/

namespace Sys2Proof.Machine

variable {s t u : State} {i : Instr}

/-- An 8-bit address is in bounds on both variants (R7, R83). -/
theorem absAddr8_lt (a : BitVec 8) (arch : Arch) : absAddr a < memSize arch := by
  have ha := a.isLt
  rw [absAddr_eq_toNat a (by decide)]
  cases arch <;> simp only [memSize] <;> omega

theorem accAlu_sameMemory (o : AluOut 8) (s : State) : sameMemory s (accAlu o s) := ⟨rfl, rfl, rfl⟩

/-- An ACC instruction that ends in an ALU write-back leaves what the operation gives; a read may have come first. -/
theorem accAluLeaves_of_exec {o : AluOut 8} {r : Nat} {c v : Prop} (harch : i.arch = .acc) (hinc : instrInc i = true)
    (hcfg : u.cfg = s.cfg) (ho : o.Gives r c v) (h : exec i s = .next (accAlu o u).advance) :
    accAluLeaves s r c v (accAlu o u).advance := by
  refine ⟨?acc, ?flags, exec_pcAdvanced_of_inc hinc h, exec_next_sameBase h, (exec_next_frame h).x harch⟩
  case acc => rw [State.advance_acc, accAlu_acc, writeback_toNat, ho.result, hcfg]
  case flags => rw [State.advance_flags, accAlu_flags, ← hcfg]; exact ho.flagsAre _

/-- An immediate operation makes no access (R162 to R164). -/
theorem exec_accImmediate {o : AluOut 8} {r : Nat} {c v : Prop} (harch : i.arch = .acc) (hinc : instrInc i = true)
    (ho : o.Gives r c v) (h : exec i s = .next (accAlu o s).advance) :
    ∃ t, exec i s = .next t ∧ sameMemory s t ∧ accAluLeaves s r c v t :=
  ⟨_, h, accAlu_sameMemory o s, accAluLeaves_of_exec harch hinc rfl ho h⟩

/-- An operation with a memory operand reads its word, and the accumulator it then uses is still that of `s`
(R167, R168). -/
theorem exec_accMemory (op : BitVec 8 → BitVec 8 → AluOut 8) {r : Word → Nat} {c v : Word → Prop} {a : BitVec 8}
    (harch : i.arch = .acc) (hinc : instrInc i = true)
    (ho : ∀ w : Word, (op (accOperand s) (trunc8 w)).Gives (r w) (c w) (v w))
    (h : exec i s = withRead (absAddr a) s fun m t => accAlu (op (accOperand t) (trunc8 m)) t) :
    ∃ (w : Word) (t : State), exec i s = .next t ∧ readGives .read s a.toNat w t ∧
      accAluLeaves s (r w) (c w) (v w) t := by
  obtain ⟨w, u, hu, hnext, hread⟩ := withRead_completes (absAddr8_lt a s.cfg.arch)
    (rest := fun m t => accAlu (op (accOperand t) (trunc8 m)) t) fun _ _ => accAlu_sameMemory _ _
  obtain ⟨hcfg, -, -, hacc, -⟩ := memRead_frame hu
  have hoperand : accOperand u = accOperand s := congrArg trunc8 hacc
  rw [absAddr_eq_toNat a (by decide)] at hread
  exact ⟨w, _, h.trans hnext, hread, accAluLeaves_of_exec harch hinc hcfg (hoperand ▸ ho w) (h.trans hnext)⟩

/-- Settles O14: a move of data into the accumulator, with no access. -/
theorem accMoveResult : Obligations.AccMoveResult := by
  intro k s
  have hexec : exec (.accMove k) s = .next (s.setAcc (zext16 k)).advance := rfl
  exact ⟨_, hexec, zext16_toNat k (by decide), rfl, moveLeaves_of_exec rfl rfl hexec, rfl, rfl, rfl⟩

/-- Settles O15, by the operation. -/
theorem accImmediateAluResults : Obligations.AccImmediateAluResults := by
  intro k s
  have ha := accOperand_toNat s
  exact ⟨exec_accImmediate rfl rfl (aluAdd_gives ha rfl) rfl, exec_accImmediate rfl rfl (aluSub_gives ha rfl) rfl,
    exec_accImmediate rfl rfl (aluAnd_gives ha rfl) rfl⟩

/-- Settles O16: the operand's address is in bounds, so the read answers, and its word is what the accumulator takes. -/
theorem accLoadResult : Obligations.AccLoadResult := by
  intro a s
  obtain ⟨w, u, hu, hnext, hread⟩ := withRead_completes (absAddr8_lt a s.cfg.arch)
    (rest := fun m t => t.setAcc (accLoaded t.cfg m)) fun _ _ => ⟨rfl, rfl, rfl⟩
  obtain ⟨hcfg, -, -, -, hx, -⟩ := memRead_frame hu
  have hexec : exec (.accLoad a) s = .next (u.setAcc (accLoaded u.cfg w)).advance := hnext
  rw [absAddr_eq_toNat a (by decide)] at hread
  exact ⟨w, _, hexec, hread, hcfg ▸ accLoaded_toNat u.cfg w, hx, moveLeaves_of_exec rfl rfl hexec⟩

/-- Settles O17: the operand's address is in bounds, so the write answers. -/
theorem accStoreResult : Obligations.AccStoreResult := by
  intro a s
  obtain ⟨t, hnext, hwrite, hregs⟩ := withWrite_completes s.acc (absAddr8_lt a s.cfg.arch)
  have hexec : exec (.accStore a) s = .next t := hnext
  rw [absAddr_eq_toNat a (by decide)] at hwrite
  exact ⟨t, hexec, hwrite, hregs, moveLeaves_of_exec rfl rfl hexec⟩

/-- Settles O18, by the operation, on the low bytes of the accumulator and of the word read. -/
theorem accMemoryAluResults : Obligations.AccMemoryAluResults := by
  intro a s
  have ha := accOperand_toNat s
  exact ⟨exec_accMemory aluAdd rfl rfl (fun w => aluAdd_gives ha (trunc8_toNat w)) rfl,
    exec_accMemory aluSub rfl rfl (fun w => aluSub_gives ha (trunc8_toNat w)) rfl⟩

/-- Settles O19: each is a conditional jump, JUMPU on a condition that always holds and JUMPNZ on the negated flag. -/
theorem accJumpResults : Obligations.AccJumpResults := by
  intro a s
  have ha : (zext16 a).toNat = a.toNat := zext16_toNat a (by decide)
  refine ⟨exec_jumpIf_leaves (c := true) rfl ha, exec_jumpIf_leaves rfl ?jumpz, exec_jumpIf_leaves rfl ?jumpnz,
    exec_jumpIf_leaves rfl ?jumpc⟩
  case jumpz | jumpc => rw [ha]
  case jumpnz => cases s.flags.zero <;> simp [ha]

end Sys2Proof.Machine
end

section
/-! SUPPORT. The register variant's instructions (43_reg_primary_instructions.md R180 to R194): what a write of one
register leaves, what an ALU write-back leaves, and each primary instruction's result and its frame. -/

namespace Sys2Proof.Machine

variable {s u : State} {i : Instr} {rd : RegIdx}

/-- A 12-bit address is in bounds on a REG machine (R7, R86). -/
theorem absAddr12_lt (a : BitVec 12) (harch : s.cfg.arch = .reg) : absAddr a < memSize s.cfg.arch := by
  rw [absAddr_eq_toNat a (by decide), harch]
  exact a.isLt

theorem aluOr_gives {n x y : Nat} {a b : BitVec n} (ha : a.toNat = x) (hb : b.toNat = y) :
    (aluOr a b).Gives (x ||| y) False False :=
  aluPlain_gives (by rw [BitVec.toNat_or, ha, hb])

/-- A write of `x[rd]` leaves every other register; a read may have come first. -/
theorem sameRegsBut_setReg (hacc : u.acc = s.acc) (hx : u.x = s.x) (v : Word) : sameRegsBut rd s (u.setReg rd v) :=
  ⟨hacc, fun j hj => (State.setReg_reg_ne u hj v).trans (reg_eq_of_x hx j)⟩

theorem regAlu_sameMemory (rd : RegIdx) (o : AluOut 16) (s : State) : sameMemory s (regAlu rd o s) := ⟨rfl, rfl, rfl⟩

/-- A REG instruction that ends in an ALU write-back leaves what the operation gives; a read may have come first. -/
theorem regAluLeaves_of_exec {o : AluOut 16} {r : Nat} {c v : Prop} (hinc : instrInc i = true) (hcfg : u.cfg = s.cfg)
    (hacc : u.acc = s.acc) (hx : u.x = s.x) (ho : o.Gives r c v) (h : exec i s = .next (regAlu rd o u).advance) :
    regAluLeaves rd s r c v (regAlu rd o u).advance := by
  refine ⟨?result, ?flags, exec_pcAdvanced_of_inc hinc h, exec_next_sameBase h, sameRegsBut_setReg hacc hx o.r⟩
  case result => exact (congrArg BitVec.toNat (regAlu_reg_self rd o u)).trans ho.result
  case flags => rw [State.advance_flags, regAlu_flags, ← hcfg]; exact ho.flagsAre _

/-- An operation on registers and constants makes no access (R182 to R184, R194). -/
theorem exec_regAlu {o : AluOut 16} {r : Nat} {c v : Prop} (hinc : instrInc i = true) (ho : o.Gives r c v)
    (h : exec i s = .next (regAlu rd o s).advance) :
    ∃ t, exec i s = .next t ∧ sameMemory s t ∧ regAluLeaves rd s r c v t :=
  ⟨_, h, regAlu_sameMemory rd o s, regAluLeaves_of_exec hinc rfl rfl rfl ho h⟩

/-- An operation with a memory operand reads its word, and the register it then uses is still that of `s`
(R187, R188). -/
theorem exec_regMemory (op : Word → Word → AluOut 16) {r : Word → Nat} {c v : Word → Prop} {a : BitVec 12}
    (harch : s.cfg.arch = .reg) (hinc : instrInc i = true)
    (ho : ∀ w : Word, (op (s.reg 0) w).Gives (r w) (c w) (v w))
    (h : exec i s = withRead (absAddr a) s fun m t => regAlu 0 (op (t.reg 0) m) t) :
    ∃ (w : Word) (t : State), exec i s = .next t ∧ readGives .read s a.toNat w t ∧
      regAluLeaves 0 s (r w) (c w) (v w) t := by
  obtain ⟨w, u, hu, hnext, hread⟩ := withRead_completes (absAddr12_lt a harch)
    (rest := fun m t => regAlu 0 (op (t.reg 0) m) t) fun _ _ => regAlu_sameMemory _ _ _
  obtain ⟨hcfg, -, -, hacc, hx, -⟩ := memRead_frame hu
  have hoperand : u.reg 0 = s.reg 0 := reg_eq_of_x hx 0
  rw [absAddr_eq_toNat a (by decide)] at hread
  exact ⟨w, _, h.trans hnext, hread, regAluLeaves_of_exec hinc hcfg hacc hx (hoperand ▸ ho w) (h.trans hnext)⟩

/-- Settles O20: a move of data into one register, with no access. -/
theorem regMoveImmediateResult : Obligations.RegMoveImmediateResult := by
  intro rd k s
  have hexec : exec (.regMoveI rd k) s = .next (s.setReg rd (sext16 k)).advance := rfl
  have hvalue : (s.setReg rd (sext16 k)).reg rd = sext16 k := State.setReg_reg_self s rd _
  have hframe : sameRegsBut rd s (s.setReg rd (sext16 k)) := sameRegsBut_setReg rfl rfl _
  exact ⟨_, hexec, (congrArg BitVec.toNat hvalue).trans (sext16_toNat k), hframe, moveLeaves_of_exec rfl rfl hexec,
    rfl, rfl, rfl⟩

/-- Settles O21, by the operation. -/
theorem regSignedImmediateResults : Obligations.RegSignedImmediateResults := by
  intro rd k s
  have hk := sext16_toNat k
  exact ⟨exec_regAlu rfl (aluAdd_gives rfl hk) rfl, exec_regAlu rfl (aluSub_gives rfl hk) rfl⟩

/-- Settles O22, by the operation: the constant is below 256, so the AND's result is too, and the OR sets no
higher bit. -/
theorem regUnsignedImmediateResults : Obligations.RegUnsignedImmediateResults := by
  intro rd k s
  have hk : (zext16 k).toNat = k.toNat := zext16_toNat k (by decide)
  obtain ⟨t, hand, hmem, hleaves⟩ := exec_regAlu (i := .regAndI rd k) rfl (aluAnd_gives rfl hk) rfl
  obtain ⟨t', hor, hmem', hleaves'⟩ := exec_regAlu (i := .regOrI rd k) rfl (aluOr_gives rfl hk) rfl
  refine ⟨⟨t, hand, hmem, ?low, hleaves⟩, t', hor, hmem', ?high, hleaves'⟩
  case low =>
    obtain ⟨hresult, -⟩ := hleaves
    rw [hresult]
    exact Nat.and_le_right.trans_lt k.isLt
  case high =>
    obtain ⟨hresult, -⟩ := hleaves'
    rw [hresult, Nat.or_div_two_pow (n := 8), Nat.div_eq_of_lt k.isLt, Nat.or_zero]

/-- Settles O23: the operand's address is in bounds, so the read answers, and its word is what `x[0]` takes. -/
theorem regLoadAbsoluteResult : Obligations.RegLoadAbsoluteResult := by
  intro a s harch
  obtain ⟨w, u, hu, hnext, hread⟩ := withRead_completes (absAddr12_lt a harch)
    (rest := fun m t => t.setReg 0 m) fun _ _ => ⟨rfl, rfl, rfl⟩
  obtain ⟨-, -, -, hacc, hx, -⟩ := memRead_frame hu
  have hexec : exec (.regLoad a) s = .next (u.setReg 0 w).advance := hnext
  rw [absAddr_eq_toNat a (by decide)] at hread
  exact ⟨w, _, hexec, hread, State.setReg_reg_self u 0 w, sameRegsBut_setReg hacc hx w,
    moveLeaves_of_exec rfl rfl hexec⟩

/-- Settles O24: the operand's address is in bounds, so the write answers. -/
theorem regStoreAbsoluteResult : Obligations.RegStoreAbsoluteResult := by
  intro a s harch
  obtain ⟨t, hnext, hwrite, hregs⟩ := withWrite_completes (s.reg 0) (absAddr12_lt a harch)
  have hexec : exec (.regStore a) s = .next t := hnext
  rw [absAddr_eq_toNat a (by decide)] at hwrite
  exact ⟨t, hexec, hwrite, hregs, moveLeaves_of_exec rfl rfl hexec⟩

/-- Settles O25, by the operation, on `x[0]` and the word read. -/
theorem regMemoryAluResults : Obligations.RegMemoryAluResults := by
  intro a s harch
  exact ⟨exec_regMemory aluAdd harch rfl (fun _ => aluAdd_gives rfl rfl) rfl,
    exec_regMemory aluSub harch rfl (fun _ => aluSub_gives rfl rfl) rfl⟩

/-- Settles O26: each is a conditional jump, JUMPU on a condition that always holds and JUMPNZ on the negated flag. -/
theorem regJumpResults : Obligations.RegJumpResults := by
  intro a s
  have ha : (zext16 a).toNat = a.toNat := zext16_toNat a (by decide)
  refine ⟨exec_jumpIf_leaves (c := true) rfl ha, exec_jumpIf_leaves rfl ?jumpz, exec_jumpIf_leaves rfl ?jumpnz,
    exec_jumpIf_leaves rfl ?jumpc⟩
  case jumpz | jumpc => rw [ha]
  case jumpnz => cases s.flags.zero <;> simp [ha]

end Sys2Proof.Machine
end

section
/-! SUPPORT. The register variant's secondary instructions (44_reg_secondary_instructions.md R210 to R221): the rotates and
the shift as arithmetic on numbers, and each instruction's result and its frame. -/

namespace Sys2Proof.Machine

theorem aluXor_gives {n x y : Nat} {a b : BitVec n} (ha : a.toNat = x) (hb : b.toNat = y) :
    (aluXor a b).Gives (x ^^^ y) False False :=
  aluPlain_gives (by rw [BitVec.toNat_xor, ha, hb])

section Rotates

variable (a : Word)

/-- Doubling leaves bit 0 clear, so the top bit that comes around to it is added (R142). -/
theorem aluRol_r_toNat : (aluRol a).r.toNat = 2 * a.toNat % 2 ^ 16 + a.toNat / 2 ^ 15 := by
  have ha := a.isLt
  have hdouble : a.toNat <<< 1 % 2 ^ 16 = (a.toNat % 2 ^ 15) <<< 1 := by simp only [Nat.shiftLeft_eq]; omega
  have htop : a.toNat >>> 15 < 2 ^ 1 := by rw [Nat.shiftRight_eq_div_pow]; omega
  calc (aluRol a).r.toNat
    _ = a.toNat <<< 1 % 2 ^ 16 ||| a.toNat >>> 15 := by rw [aluRol_r, BitVec.toNat_rotateLeft]
    _ = (a.toNat % 2 ^ 15) <<< 1 + a.toNat >>> 15 := by rw [hdouble, Nat.shiftLeft_add_eq_or_of_lt htop]
    _ = 2 * a.toNat % 2 ^ 16 + a.toNat / 2 ^ 15 := by rw [Nat.shiftLeft_eq, Nat.shiftRight_eq_div_pow]; omega

/-- Halving leaves bit 15 clear, so bit 0 that comes around to it is added (R143). -/
theorem aluRor_r_toNat : (aluRor a).r.toNat = a.toNat / 2 + a.toNat % 2 * 2 ^ 15 := by
  have ha := a.isLt
  have hbit : a.toNat <<< 15 % 2 ^ 16 = (a.toNat % 2) <<< 15 := by simp only [Nat.shiftLeft_eq]; omega
  have hhalf : a.toNat >>> 1 < 2 ^ 15 := by rw [Nat.shiftRight_eq_div_pow]; omega
  calc (aluRor a).r.toNat
    _ = a.toNat >>> 1 ||| a.toNat <<< 15 % 2 ^ 16 := by rw [aluRor_r, BitVec.toNat_rotateRight]
    _ = (a.toNat % 2) <<< 15 + a.toNat >>> 1 := by rw [hbit, Nat.or_comm, Nat.shiftLeft_add_eq_or_of_lt hhalf]
    _ = a.toNat / 2 + a.toNat % 2 * 2 ^ 15 := by rw [Nat.shiftLeft_eq, Nat.shiftRight_eq_div_pow]; omega

theorem aluAsl_r_toNat : (aluAsl a).r.toNat = 2 * a.toNat % 2 ^ 16 := by
  rw [aluAsl, aluPlain, BitVec.toNat_shiftLeft, Nat.shiftLeft_eq, Nat.pow_one, Nat.mul_comm]

theorem aluRol_gives : (aluRol a).Gives (2 * a.toNat % 2 ^ 16 + a.toNat / 2 ^ 15) False False :=
  aluPlain_gives (aluRol_r_toNat a)

theorem aluRor_gives : (aluRor a).Gives (a.toNat / 2 + a.toNat % 2 * 2 ^ 15) False False :=
  aluPlain_gives (aluRor_r_toNat a)

theorem aluAsl_gives : (aluAsl a).Gives (2 * a.toNat % 2 ^ 16) False False := aluPlain_gives (aluAsl_r_toNat a)

end Rotates

/-- Settles O30, by the operation. -/
theorem regAddSubResults : Obligations.RegAddSubResults := by
  intro rd rs s
  exact ⟨exec_regAlu rfl (aluAdd_gives rfl rfl) rfl, exec_regAlu rfl (aluSub_gives rfl rfl) rfl⟩

/-- Settles O31, by the operation. -/
theorem regLogicResults : Obligations.RegLogicResults := by
  intro rd rs s
  exact ⟨exec_regAlu rfl (aluAnd_gives rfl rfl) rfl, exec_regAlu rfl (aluOr_gives rfl rfl) rfl,
    exec_regAlu rfl (aluXor_gives rfl rfl) rfl⟩

/-- Settles O32, by the operation. -/
theorem regRotateShiftResults : Obligations.RegRotateShiftResults := by
  intro rd s
  exact ⟨exec_regAlu rfl (aluRol_gives _) rfl, exec_regAlu rfl (aluRor_gives _) rfl,
    exec_regAlu rfl (aluAsl_gives _) rfl⟩

/-- Settles O33: in bounds the read answers, at the address `x[rs]` holds before the word goes into `x[rd]`. -/
theorem regLoadIndirectResult : Obligations.RegLoadIndirectResult := by
  intro rd rs s haddr
  obtain ⟨w, u, hu, hnext, hread⟩ := withRead_completes haddr
    (rest := fun m t => t.setReg rd m) fun _ _ => ⟨rfl, rfl, rfl⟩
  obtain ⟨-, -, -, hacc, hx, -⟩ := memRead_frame hu
  have hexec : exec (.regLoadInd rd rs) s = .next (u.setReg rd w).advance := hnext
  exact ⟨w, _, hexec, hread, State.setReg_reg_self u rd w, sameRegsBut_setReg hacc hx w,
    moveLeaves_of_exec rfl rfl hexec⟩

/-- Settles O34: in bounds the write answers. -/
theorem regStoreIndirectResult : Obligations.RegStoreIndirectResult := by
  intro rd rs s haddr
  obtain ⟨t, hnext, hwrite, hregs⟩ := withWrite_completes (s.reg rd) haddr
  have hexec : exec (.regStoreInd rd rs) s = .next t := hnext
  exact ⟨t, hexec, hwrite, hregs, moveLeaves_of_exec rfl rfl hexec⟩

/-- Settles O29: a move of data into one register, with no access. -/
theorem regMoveResult : Obligations.RegMoveResult := by
  intro rd rs s
  have hexec : exec (.regMove rd rs) s = .next (s.setReg rd (s.reg rs)).advance := rfl
  have hframe : sameRegsBut rd s (s.setReg rd (s.reg rs)) := setReg_sameRegsBut rd _ s
  exact ⟨_, hexec, State.setReg_reg_self s rd _, hframe, moveLeaves_of_exec rfl rfl hexec, rfl, rfl, rfl⟩

/-- Settles O35: the bounds check comes before the access, and sees the whole register. -/
theorem regIndirectOutOfBoundsFaults : Obligations.RegIndirectOutOfBoundsFaults :=
  fun _ _ _ haddr => ⟨withRead_outOfBounds _ haddr, withWrite_outOfBounds _ haddr⟩

end Sys2Proof.Machine
end

section
/-! SUPPORT. The program image (70_reset_and_hazards.md R272): what each address reads once it is loaded. -/

namespace Sys2Proof.Machine

/-- Loading changes only the addresses the words cover: a word put at `a` stays, for the rest of the image lies above it. -/
theorem loadFrom_word (m : Memory) (a : Nat) (ws : List Word) (b : Nat) :
    (loadFrom m a ws).word b = if a ≤ b then ws.getD (b - a) (m.word b) else m.word b := by
  induction ws generalizing m a with
  | nil => simp [loadFrom]
  | cons w ws ih =>
    rw [loadFrom, ih, Memory.word_setWord]
    obtain hlt | rfl | hgt := Nat.lt_trichotomy b a
    · rw [if_neg (by omega), if_neg (by omega), if_neg (by omega)]
    · simp
    · have hidx : b - a = b - (a + 1) + 1 := by omega
      rw [if_pos (Nat.succ_le_of_lt hgt), if_neg hgt.ne', if_pos hgt.le, hidx, List.getD_cons_succ]

/-- A construction's memory reads the cut image, zeros after it. -/
theorem construct_word (cfg : Config) (image : List Word) (a : Nat) :
    (State.construct cfg image).mem.word a = (image.take (memSize cfg.arch)).getD a 0 := by
  simp [State.construct, loadFrom_word]

/-- Settles O41: the words of the image below MEMSIZE are those the cut keeps. -/
theorem constructLoadsImage : Obligations.ConstructLoadsImage := by
  intro cfg image a
  rw [construct_word, List.getD_eq_getElem?_getD, List.getElem?_take]
  split
  · exact List.getD_eq_getElem?_getD.symm
  · rfl

end Sys2Proof.Machine
end
